-- ==== Sys2Proof/Word.lean ====
section
/-! DEFINITION. The machine's one unit of storage, register content and instruction encoding (00_scope.md R2). -/

namespace Sys2Proof

/-- A Word: "a 16-bit unsigned value" (R2). All arithmetic on Words is modulo 2^16. -/
abbrev Word := BitVec 16

end Sys2Proof
end

