-- ==== Sys2Proof/Config.lean ====
section
/-! DEFINITION. What an implementation of the ISA fixes: the shapes of the configuration that 00_scope.md section 4 asks a
model to keep apart (FIELD_LAYOUT, FLAG_LAYOUT, the range of MEMORY_SIZE, the assembler's open arguments). The values the
model takes stand where they are used: `fieldLayout` and `opcodeNumber` in Decode.lean, `flagLayout` in
Machine/Flags.lean, `memorySizeDefault` in Machine/Parameters.lean. The hardware has no undefined value, so there is no
free value here. -/

namespace Sys2Proof

/-- Bit positions of the instruction fields: the lowest bit of each. The widths 4, 3, 3 and 9 are fixed (R3); the
positions are FIELD_LAYOUT (R51, R52, D1). -/
structure FieldLayout where
  opcodeLo : Nat
  rdLo : Nat
  rsLo : Nat
  imm9Lo : Nat
  deriving DecidableEq, Repr

/-- Bit positions of the three flags in the packed flag Word: FLAG_LAYOUT (10_state.md R18, D4). -/
structure FlagLayout where
  zBit : Nat
  cBit : Nat
  nBit : Nat
  deriving DecidableEq, Repr

/-- The bounds of MEMORY_SIZE: `1 <= MEMORY_SIZE <= 65536` (R4, D3). -/
abbrev memorySizeInRange (n : Nat) : Bool := decide (1 ≤ n) && decide (n ≤ 65536)

/-- The arguments of the assembler that the spec leaves open: ASM_IDENT, which label names are identifiers (D22), and
ASM_EXTRA_BASES, what literals beyond decimal and `0x` hexadecimal mean (D16). No machine state depends on them. -/
structure AsmConfig where
  ident : List Char → Bool
  extraBases : List Char → Option Nat

/-- The arguments this spec's own programs need: "letters only" (D22) and no further base (D16's default, none). DESIGN CHOICE
(N12, log 19): a name of letters that spells a mnemonic, such as NOP, is admitted too; safe for the machine. -/
def AsmConfig.default : AsmConfig where
  ident name := !name.isEmpty && name.all Char.isAlpha
  extraBases _ := none

end Sys2Proof
end

