-- ==== Sys2Proof/Syntax.lean ====
section
/-! DEFINITION. The instruction set: the 16 operations (30_encoding.md R61, R62) and their instructions, one constructor per
row of spec/opcode_table.json, with the operand fields the engine reads (R63). -/

namespace Sys2Proof

/-- The index of a general register, 0 to 7 (10_state.md R10); every value of the 3-bit field names a register (R12). -/
abbrev RegIndex := Fin 8

/-- The 9-bit immediate of MOVI (R3, R63). -/
abbrev Imm9 := BitVec 9

/-- The 16 defined operations, in the order of the spec's mnemonic list (R61). -/
inductive Opcode
  | halt | movi | mov | load | store | add | sub | and | or | xor | not | shl | shr | jmp | jz | nop
  deriving DecidableEq, Repr

/-- The closed list of the 16 mnemonics, in the spec's order (R61). -/
def Opcode.all : List Opcode :=
  [.halt, .movi, .mov, .load, .store, .add, .sub, .and, .or, .xor, .not, .shl, .shr, .jmp, .jz, .nop]

/-- An instruction with its operands. Bits that an instruction does not use are ignored (R58) and have no field here. -/
inductive Instr
  /-- HALT (40_step_halt_nop.md R98) -/
  | halt
  /-- MOVI Rd, imm9 (41_move.md R110) -/
  | movi (rd : RegIndex) (imm : Imm9)
  /-- MOV Rd, Rs (41_move.md R111) -/
  | mov (rd rs : RegIndex)
  /-- LOAD Rd, Rs (42_load_store.md R120) -/
  | load (rd rs : RegIndex)
  /-- STORE Rd, Rs: `rd` holds the data, `rs` the address (42_load_store.md R121) -/
  | store (rd rs : RegIndex)
  /-- ADD Rd, Rs (43_add_sub.md R130) -/
  | add (rd rs : RegIndex)
  /-- SUB Rd, Rs (43_add_sub.md R131) -/
  | sub (rd rs : RegIndex)
  /-- AND Rd, Rs (44_logic.md R140) -/
  | and (rd rs : RegIndex)
  /-- OR Rd, Rs (44_logic.md R141) -/
  | or (rd rs : RegIndex)
  /-- XOR Rd, Rs (44_logic.md R142) -/
  | xor (rd rs : RegIndex)
  /-- NOT Rd, Rs: complements `rs` into `rd` (44_logic.md R143) -/
  | not (rd rs : RegIndex)
  /-- SHL Rd (45_shift.md R150) -/
  | shl (rd : RegIndex)
  /-- SHR Rd (45_shift.md R151) -/
  | shr (rd : RegIndex)
  /-- JMP Rs (46_jump.md R160) -/
  | jmp (rs : RegIndex)
  /-- JZ Rs (46_jump.md R161) -/
  | jz (rs : RegIndex)
  /-- NOP (40_step_halt_nop.md R99) -/
  | nop
  deriving DecidableEq, Repr

/-- The operation an instruction performs. -/
def Instr.opcode : Instr → Opcode
  | .halt => .halt
  | .movi _ _ => .movi
  | .mov _ _ => .mov
  | .load _ _ => .load
  | .store _ _ => .store
  | .add _ _ => .add
  | .sub _ _ => .sub
  | .and _ _ => .and
  | .or _ _ => .or
  | .xor _ _ => .xor
  | .not _ _ => .not
  | .shl _ => .shl
  | .shr _ => .shr
  | .jmp _ => .jmp
  | .jz _ => .jz
  | .nop => .nop

end Sys2Proof
end

