-- ==== Sys2Proof/WellFormed.lean ====
section
/-! DEFINITION. Well-formedness. The codec's encode functions take plain numbers, and "callers are responsible for ensuring
rd,rs in [0,7] and imm9 fits 9 bits" (30_encoding.md R59, R60): the checks below are that responsibility, one per argument.
An `Instr` holds its fields in types of exactly those ranges, so every `Instr` passes them. -/

namespace Sys2Proof

/-- The arguments of a call of the codec: the opcode number and the operand numbers, not yet masked. -/
inductive CodecCall
  /-- `encodeRegisterPair(opcode, rd, rs)` (R60) -/
  | registerPair (opcode rd rs : Nat)
  /-- `encodeImmediate(rd, imm9)` (R59) -/
  | immediate (rd imm9 : Nat)
  deriving DecidableEq, Repr

/-- The opcode number fits its 4-bit field (R3). -/
def opcodeFits (n : Nat) : Bool := decide (n < 16)

/-- The register number is one of the eight registers (R3). -/
def registerFits (n : Nat) : Bool := decide (n < 8)

/-- The immediate fits its 9-bit field (R3). -/
def imm9Fits (n : Nat) : Bool := decide (n < 512)

/-- Every argument is in the range its field holds. -/
def CodecCall.wellFormed : CodecCall → Bool
  | .registerPair opcode rd rs => opcodeFits opcode && registerFits rd && registerFits rs
  | .immediate rd imm9 => registerFits rd && imm9Fits imm9

/-- The operand numbers of an instruction are in range. -/
def Instr.wellFormed : Instr → Bool
  | .halt | .nop => true
  | .movi rd imm => registerFits rd.val && imm9Fits imm.toNat
  | .mov rd rs | .load rd rs | .store rd rs | .add rd rs | .sub rd rs | .and rd rs | .or rd rs | .xor rd rs
  | .not rd rs => registerFits rd.val && registerFits rs.val
  | .shl r | .shr r | .jmp r | .jz r => registerFits r.val

end Sys2Proof
end

