-- ==== Sys2Proof/Decode.lean ====
section
/-! DEFINITION. The codec (30_encoding.md sections 1 to 7): pure, stateless functions between Words and instructions, the
decoder first and the encoder after it, both written from the same FIELD_LAYOUT and OPCODE_MAP. -/

namespace Sys2Proof

/-- FIELD_LAYOUT: opcode `w[15:12]`, Rd `w[11:9]`, Rs `w[8:6]`, imm9 `w[8:0]` (R51, R52).
DESIGN CHOICE (D1, log 2): unsafe. -/
def fieldLayout : FieldLayout where
  opcodeLo := 12
  rdLo := 9
  rsLo := 6
  imm9Lo := 0

/-- OPCODE_MAP: the opcode number of each operation, by position in the mnemonic list (R62).
DESIGN CHOICE (D2, log 3): unsafe. -/
def opcodeNumber : Opcode → BitVec 4
  | .halt => 0
  | .movi => 1
  | .mov => 2
  | .load => 3
  | .store => 4
  | .add => 5
  | .sub => 6
  | .and => 7
  | .or => 8
  | .xor => 9
  | .not => 10
  | .shl => 11
  | .shr => 12
  | .jmp => 13
  | .jz => 14
  | .nop => 15

/-- `decodeOpcode(w) = w[15:12]` (R54). -/
def decodeOpcode (w : Word) : BitVec 4 := w.extractLsb' fieldLayout.opcodeLo 4

/-- `decodeRd(w) = w[11:9]` (R55). -/
def decodeRd (w : Word) : RegIndex := (w.extractLsb' fieldLayout.rdLo 3).toFin

/-- `decodeRs(w) = w[8:6]`, defined on every word (R56). -/
def decodeRs (w : Word) : RegIndex := (w.extractLsb' fieldLayout.rsLo 3).toFin

/-- `decodeImm9(w) = w[8:0]`, defined on every word (R57). -/
def decodeImm9 (w : Word) : Imm9 := w.extractLsb' fieldLayout.imm9Lo 9

/-- The operation the opcode map assigns to an opcode number, none for a number it leaves unassigned. -/
def operationOf (n : BitVec 4) : Option Opcode := Opcode.all.find? (fun op => opcodeNumber op == n)

/-- The instruction a Word is: total, with no validation (R58, R64). The opcode alone selects the format (R53); an opcode
number the map leaves unassigned is NOP (R100, conflict C1). DEDUCED (D8, log 8): bits an instruction does not use are
ignored; safe only if the engine never reads them. -/
def decode (w : Word) : Instr :=
  match operationOf (decodeOpcode w) with
  | some .halt => .halt
  | some .movi => .movi (decodeRd w) (decodeImm9 w)
  | some .mov => .mov (decodeRd w) (decodeRs w)
  | some .load => .load (decodeRd w) (decodeRs w)
  | some .store => .store (decodeRd w) (decodeRs w)
  | some .add => .add (decodeRd w) (decodeRs w)
  | some .sub => .sub (decodeRd w) (decodeRs w)
  | some .and => .and (decodeRd w) (decodeRs w)
  | some .or => .or (decodeRd w) (decodeRs w)
  | some .xor => .xor (decodeRd w) (decodeRs w)
  | some .not => .not (decodeRd w) (decodeRs w)
  | some .shl => .shl (decodeRd w)
  | some .shr => .shr (decodeRd w)
  | some .jmp => .jmp (decodeRs w)
  | some .jz => .jz (decodeRs w)
  | some .nop => .nop
  | none => .nop

/-- The instruction the decoder reads from an instruction whose bits are `w`. Every row of the table is one Word of 16
bits, so a longer row is no instruction of this machine; bits above `nbits` are 0. -/
def decodeTableWord (nbits w : Nat) : Option Instr :=
  if nbits ≤ 16 then some (decode (BitVec.ofNat 16 (w % 2 ^ nbits))) else none

/-- `encodeImmediate(rd, imm9)`: a MOVI word, its arguments masked and not validated (R59). -/
def encodeImmediate (rd imm9 : Nat) : Word :=
  ((opcodeNumber .movi).setWidth 16 <<< fieldLayout.opcodeLo)
    ||| ((BitVec.ofNat 16 rd &&& 0x7) <<< fieldLayout.rdLo)
    ||| ((BitVec.ofNat 16 imm9 &&& 0x1FF) <<< fieldLayout.imm9Lo)

/-- `encodeRegisterPair(opcode, rd, rs)`: a format RR word, its arguments masked and not validated, the unused bits 0 (R60).
DESIGN CHOICE (D9, log 9): the opcode is masked too. -/
def encodeRegisterPair (opcode rd rs : Nat) : Word :=
  ((BitVec.ofNat 16 opcode &&& 0xF) <<< fieldLayout.opcodeLo)
    ||| ((BitVec.ofNat 16 rd &&& 0x7) <<< fieldLayout.rdLo)
    ||| ((BitVec.ofNat 16 rs &&& 0x7) <<< fieldLayout.rsLo)

/-- A call of the codec's encode functions. -/
def CodecCall.encode : CodecCall → Word
  | .registerPair opcode rd rs => encodeRegisterPair opcode rd rs
  | .immediate rd imm9 => encodeImmediate rd imm9

/-- The call of the codec that gives an instruction its canonical word: fields the instruction does not use are passed as 0
(R66). DESIGN CHOICE (D9, log 9): unsafe for the words a real assembler emits, without effect on behaviour. -/
def Instr.codecCall : Instr → CodecCall
  | .halt => .registerPair (opcodeNumber .halt).toNat 0 0
  | .movi rd imm => .immediate rd.val imm.toNat
  | .mov rd rs => .registerPair (opcodeNumber .mov).toNat rd.val rs.val
  | .load rd rs => .registerPair (opcodeNumber .load).toNat rd.val rs.val
  | .store rd rs => .registerPair (opcodeNumber .store).toNat rd.val rs.val
  | .add rd rs => .registerPair (opcodeNumber .add).toNat rd.val rs.val
  | .sub rd rs => .registerPair (opcodeNumber .sub).toNat rd.val rs.val
  | .and rd rs => .registerPair (opcodeNumber .and).toNat rd.val rs.val
  | .or rd rs => .registerPair (opcodeNumber .or).toNat rd.val rs.val
  | .xor rd rs => .registerPair (opcodeNumber .xor).toNat rd.val rs.val
  | .not rd rs => .registerPair (opcodeNumber .not).toNat rd.val rs.val
  | .shl rd => .registerPair (opcodeNumber .shl).toNat rd.val 0
  | .shr rd => .registerPair (opcodeNumber .shr).toNat rd.val 0
  | .jmp rs => .registerPair (opcodeNumber .jmp).toNat 0 rs.val
  | .jz rs => .registerPair (opcodeNumber .jz).toNat 0 rs.val
  | .nop => .registerPair (opcodeNumber .nop).toNat 0 0

/-- The canonical word of an instruction (R66). -/
def encode (i : Instr) : Word := i.codecCall.encode

/-- The mnemonic of an operation, as the spec spells it (R61). -/
def mnemonic : Opcode → String
  | .halt => "HALT"
  | .movi => "MOVI"
  | .mov => "MOV"
  | .load => "LOAD"
  | .store => "STORE"
  | .add => "ADD"
  | .sub => "SUB"
  | .and => "AND"
  | .or => "OR"
  | .xor => "XOR"
  | .not => "NOT"
  | .shl => "SHL"
  | .shr => "SHR"
  | .jmp => "JMP"
  | .jz => "JZ"
  | .nop => "NOP"

/-- A name in upper case: mnemonics and label names are matched case-insensitively (R61, R71). -/
def upperCase (name : List Char) : List Char := name.map Char.toUpper

/-- The operation a name is the mnemonic of, matched case-insensitively (R61). -/
def operationNamed (name : List Char) : Option Opcode :=
  Opcode.all.find? (fun op => (mnemonic op).toList == upperCase name)

/-- `opcodeForMnemonic(name) -> opcode | not-found` (R61). -/
def opcodeForMnemonic (name : List Char) : Option (BitVec 4) := (operationNamed name).map opcodeNumber

end Sys2Proof
end

