-- ==== Sys2Proof/Machine/Parameters.lean ====
section
/-! DEFINITION. The value the machine after reset takes for the spec's open parameter MEMORY_SIZE. -/

namespace Sys2Proof.Machine

/-- The default of MEMORY_SIZE, 65536 Words (00_scope.md R4). DESIGN CHOICE (D3, log 1): unsafe for a claim about
`State.reset` alone; claims about every state hold for every size. -/
def memorySizeDefault : Nat := 65536

end Sys2Proof.Machine
end

