-- ==== Sys2Proof/Machine/State.lean ====
section
/-! DEFINITION. The architectural state as plain data (10_state.md, 20_memory.md section 1), the machine after reset, and
the reasons a step can stop. -/

namespace Sys2Proof.Machine

/-- The three flags of the flag register (10_state.md R18). The packed Word is the view `Flags.pack`. -/
structure Flags where
  z : Bool
  c : Bool
  n : Bool
  deriving DecidableEq, Repr

/-- The memory array as (address, Word) pairs: the unit of storage is the Word, there is no byte (20_memory.md R35, log 10).
An address with no entry reads as 0, as every cell is "zero-initialized at creation" (R30). Canonical form: `Memory.wf`. -/
abbrev Memory := List (Nat × Word)

/-- The whole architectural state: "register file, program counter, flag register, and halted status" (10_state.md), the
memory array behind the Bus, and the model's argument MEMORY_SIZE (log 1), which nothing the machine does changes. -/
structure State where
  regs : Vector Word 8
  pc : Word
  flags : Flags
  halted : Bool
  mem : Memory
  memorySize : Nat
  deriving DecidableEq, Repr

/-- The reasons a step faults: there are none. "The engine never raises an error from step()" (60_exceptions.md R170, D21,
log 18), so this type has no constructor. -/
inductive Fault
  deriving DecidableEq, Repr

/-- The reasons a step is refused. -/
inductive Refusal
  /-- An instruction that has no meaning in this model yet, by its mnemonic. Raised by no arm of `exec`: all 16 instructions
  have their meaning. Safe: it would only stop the model. -/
  | notModelled (mnemonic : String)
  deriving DecidableEq, Repr

/-- What a meaning answers. -/
abbrev Result := Host.Outcome State Fault Refusal

/-- The machine right after construction with a memory of `memorySize` Words: every piece of state is 0 or false
(10_state.md R22, 70_reset_and_hazards.md R190). -/
def State.constructed (memorySize : Nat) : State where
  regs := Vector.replicate 8 0
  pc := 0
  flags := ⟨false, false, false⟩
  halted := false
  mem := []
  memorySize := memorySize

/-- The machine right after reset, before anything is loaded, with the default memory size (R190, R4). -/
def State.reset : State := State.constructed memorySizeDefault

end Sys2Proof.Machine
end

