-- ==== Sys2Proof/Machine/Ops.lean ====
section
/-! DEFINITION. The named operations over memory, registers, the program counter and the halted status, which the meanings
and the step are written with. TAKING AN EXCEPTION has no operation: the hardware has no trap entry and no trap return, no
register saves a pc or a status, and every instruction completes (60_exceptions.md R170, R174, R175). -/

namespace Sys2Proof.Machine

/-! ### The memory array -/

/-- The canonical form: addresses strictly rising, no entry equal to the 0 an unlisted address reads as. -/
def Memory.wf : Memory → Bool
  | [] => true
  | (a, v) :: m => v != 0 && m.all (fun p => decide (a < p.1)) && Memory.wf m

/-- Every listed address is below `size`: a cell at or above MEMORY_SIZE does not exist (R30). -/
def Memory.within (size : Nat) (m : Memory) : Bool := m.all (fun p => decide (p.1 < size))

/-- The Word in cell `a`. -/
def Memory.cell : Memory → Nat → Word
  | [], _ => 0
  | (b, v) :: m, a => if b = a then v else Memory.cell m a

/-- The memory with cell `a` zero, that is, unlisted. -/
def Memory.clear (m : Memory) (a : Nat) : Memory := m.filter (fun p => p.1 != a)

/-- The memory with an entry for the unlisted address `a` put in its place. -/
def Memory.place : Memory → Nat → Word → Memory
  | [], a, v => [(a, v)]
  | (b, w) :: m, a, v => if a < b then (a, v) :: (b, w) :: m else (b, w) :: Memory.place m a v

/-- The memory with `v` in cell `a`, in canonical form: a zero is not listed. -/
def Memory.put (m : Memory) (a : Nat) (v : Word) : Memory :=
  if v = 0 then m.clear a else (m.clear a).place a v

/-- The Bus read of a memory of `size` Words: "the stored word, or 0 if address >= MEMORY_SIZE" (20_memory.md R31). -/
def Memory.busRead (m : Memory) (size a : Nat) : Word := if a < size then m.cell a else 0

/-- The Bus write: "stores value at address if in bounds, otherwise is a silent no-op" (20_memory.md R32). -/
def Memory.busWrite (m : Memory) (size a : Nat) (v : Word) : Memory := if a < size then m.put a v else m

/-! ### The Bus as the engine sees it -/

/-- `addr < MEMORY_SIZE`. -/
abbrev inBounds (s : State) (addr : Word) : Prop := addr.toNat < s.memorySize

/-- `MemRead(addr, 1)` (R31). -/
def memRead (s : State) (addr : Word) : Word := s.mem.busRead s.memorySize addr.toNat

/-- `MemWrite(addr, 1, v)` (R32). -/
def memWrite (s : State) (addr v : Word) : State := { s with mem := s.mem.busWrite s.memorySize addr.toNat v }

/-! ### Registers -/

/-- `x[r]`: no register is hardwired (10_state.md R11), each reads as what it holds. -/
def readReg (s : State) (r : RegIndex) : Word := s.regs[r]

/-- `x[r] <- v` (10_state.md R10). -/
def writeReg (s : State) (r : RegIndex) (v : Word) : State := { s with regs := s.regs.set r v }

/-! ### Program counter and halted status -/

/-- `pc <- target`: all 16 bits, no masking, scaling or range check (10_state.md R17). -/
def setPc (s : State) (target : Word) : State := { s with pc := target }

/-- The advance of every non-halted step, `pc <- (pc + 1) mod 2^16` (40_step_halt_nop.md R93). DESIGN CHOICE (D7, log 7): it
wraps from 0xFFFF to 0x0000 (10_state.md R16); unsafe at that one address. -/
def advancePc (s : State) : State := setPc s (s.pc + 1)

/-- `halted <- true` (R98). -/
def setHalted (s : State) : State := { s with halted := true }

/-- The fetch: one Bus read at the current pc (40_step_halt_nop.md R92). -/
def fetch (s : State) : Word := memRead s s.pc

/-! ### Host operations on the state -/

/-- `reset()`: "zero all registers, PC, flags; clear halted. Does not touch memory." (70_reset_and_hazards.md R191) -/
def hostReset (s : State) : State := { State.constructed s.memorySize with mem := s.mem }

/-- A Word placed in the cell the next step fetches, with that step enabled: halted cleared, and the memory made large
enough to hold the cell at pc where it is not (log 11). Nothing else changes. -/
def placeAtPc (s : State) (w : Word) : State :=
  { s with
    halted := false
    memorySize := max s.memorySize (s.pc.toNat + 1)
    mem := s.mem.put s.pc.toNat w }

end Sys2Proof.Machine
end

