-- ==== Sys2Proof/Machine/Operands.lean ====
section
/-! DEFINITION. The operand forms, all that there are (30_encoding.md R63, 42_load_store.md R122): a register, the
zero-extended imm9, the memory cell a register addresses, and a jump target in a register. -/

namespace Sys2Proof.Machine

/-- A register operand: the index selects `x[0]`..`x[7]` directly (R63). -/
def registerOperand (s : State) (r : RegIndex) : Word := readReg s r

/-- The immediate operand: `zext_16(imm9)`, not sign-extended, scaled or shifted (R63). -/
def immediateOperand (imm : Imm9) : Word := imm.setWidth 16

/-- The effective address of LOAD and STORE: register indirect, "the full 16-bit value of x[Rs]" (R122). -/
def effectiveAddress (s : State) (rs : RegIndex) : Word := readReg s rs

/-- The memory operand a register addresses: the Word the Bus reads there (R120). -/
def memoryOperand (s : State) (rs : RegIndex) : Word := memRead s (effectiveAddress s rs)

/-- The target of a jump: absolute, all 16 bits of a register (46_jump.md R160, R162). -/
def jumpTarget (s : State) (rs : RegIndex) : Word := readReg s rs

end Sys2Proof.Machine
end

