-- ==== Sys2Proof/Machine/Flags.lean ====
section
/-! DEFINITION. Every flag computation (10_state.md section 3, and the Flags paragraphs of rules R110 to R151), the packing of
the flag Word, and the write-back of a flag-producing instruction. -/

namespace Sys2Proof.Machine

/-- Zero: the result is 0x0000 (R19). PRESUMED (D5, log 5): the spec takes it from general knowledge; unsafe. -/
def zeroFlag (v : Word) : Bool := v == 0

/-- Negative: bit 15 of the result (R19). PRESUMED (D5, log 5): unsafe. -/
def negativeFlag (v : Word) : Bool := v.msb

/-- The Carry of an instruction whose row states no Carry rule: cleared (R20). DEDUCED (D6, conflict C3, log 6): unsafe for
a claim about the final C flag; no instruction reads C. -/
def noCarry : Bool := false

/-- The Carry of ADD: the unsigned sum of the two operands exceeds 0xFFFF (R130). -/
def addCarry (a b : Word) : Bool := decide (a.toNat + b.toNat > 0xFFFF)

/-- The Carry of SUB: "no borrow", a >= b unsigned (R131). -/
def subCarry (a b : Word) : Bool := decide (a.toNat ≥ b.toNat)

/-- The Carry of SHL: bit 15 of the value before the shift (R150). -/
def shlCarry (a : Word) : Bool := a.msb

/-- The Carry of SHR: bit 0 of the value before the shift (R151). -/
def shrCarry (a : Word) : Bool := a.getLsbD 0

/-- The flags after `SetFlags(v, c)`: all three overwritten, no partial update (R20). -/
def flagsOf (v : Word) (c : Bool) : Flags := ⟨zeroFlag v, c, negativeFlag v⟩

/-- `SetFlags(v, c)`, the only way flags change during execution (R20). -/
def setFlags (s : State) (v : Word) (c : Bool) : State := { s with flags := flagsOf v c }

/-- `x[d] <- v; SetFlags(v, c)`: the write-back of every flag-producing instruction. -/
def writeResult (s : State) (d : RegIndex) (v : Word) (c : Bool) : State := setFlags (writeReg s d v) v c

/-- FLAG_LAYOUT: Z in bit 0, C in bit 1, N in bit 2 (R18). DESIGN CHOICE (D4, log 4): unsafe for a claim about the raw flag
Word alone. -/
def flagLayout : FlagLayout where
  zBit := 0
  cBit := 1
  nBit := 2

/-- One bit at a position of a Word. -/
def bitAt (b : Bool) (position : Nat) : Word := (BitVec.ofBool b).setWidth 16 <<< position

/-- The flag register as the Word FLAGS, its other bits 0 (R18). No instruction reads or writes it as a whole. -/
def Flags.pack (f : Flags) : Word :=
  bitAt f.z flagLayout.zBit ||| bitAt f.c flagLayout.cBit ||| bitAt f.n flagLayout.nBit

end Sys2Proof.Machine
end

