-- ==== Sys2Proof/Machine/AddSub.lean ====
section
/-! DEFINITION. Integer arithmetic (43_add_sub.md): ADD, SUB. -/

namespace Sys2Proof.Machine

/-- ADD Rd, Rs: 16-bit addition with carry-out, no carry-in (R130). -/
def execAdd (rd rs : RegIndex) (s : State) : Result :=
  let a := registerOperand s rd
  let b := registerOperand s rs
  .next (writeResult s rd (a + b) (addCarry a b))

/-- SUB Rd, Rs: 16-bit subtraction with a no-borrow carry taken from the original operands, no borrow-in (R131). -/
def execSub (rd rs : RegIndex) (s : State) : Result :=
  let a := registerOperand s rd
  let b := registerOperand s rs
  .next (writeResult s rd (a - b) (subCarry a b))

end Sys2Proof.Machine
end

