-- ==== Sys2Proof/Machine/HaltNop.lean ====
section
/-! DEFINITION. Execution control (40_step_halt_nop.md sections 3 and 4): HALT, NOP. -/

namespace Sys2Proof.Machine

/-- HALT: "set halted=true" (R98). -/
def execHalt (s : State) : Result := .next (setHalted s)

/-- NOP: "no effect" (R99). -/
def execNop (s : State) : Result := .next s

end Sys2Proof.Machine
end

