-- ==== Sys2Proof/Machine/Jump.lean ====
section
/-! DEFINITION. Control transfer (46_jump.md): JMP, JZ. When a meaning runs, pc already holds the address of the next
instruction (R93). -/

namespace Sys2Proof.Machine

/-- JMP Rs: "PC <- Rs", no target is illegal (R160). -/
def execJmp (rs : RegIndex) (s : State) : Result := .next (setPc s (jumpTarget s rs))

/-- JZ Rs: "if Z flag set: PC <- Rs, else no change" (R161). -/
def execJz (rs : RegIndex) (s : State) : Result :=
  .next (if s.flags.z then setPc s (jumpTarget s rs) else s)

end Sys2Proof.Machine
end

