-- ==== Sys2Proof/Machine/LoadStore.lean ====
section
/-! DEFINITION. Loads and stores (42_load_store.md): LOAD, STORE. -/

namespace Sys2Proof.Machine

/-- LOAD Rd, Rs: "Rd <- mem[Rs]", 0 from out of bounds (R120). -/
def execLoad (rd rs : RegIndex) (s : State) : Result :=
  .next (writeResult s rd (memoryOperand s rs) noCarry)

/-- STORE Rd, Rs: "mem[Rs] <- Rd", dropped out of bounds; no register and no flag changes (R121). -/
def execStore (rd rs : RegIndex) (s : State) : Result :=
  .next (memWrite s (effectiveAddress s rs) (registerOperand s rd))

end Sys2Proof.Machine
end

