-- ==== Sys2Proof/Machine/Logic.lean ====
section
/-! DEFINITION. Bitwise logic (44_logic.md): AND, OR, XOR, NOT. -/

namespace Sys2Proof.Machine

/-- AND Rd, Rs (R140). -/
def execAnd (rd rs : RegIndex) (s : State) : Result :=
  .next (writeResult s rd (registerOperand s rd &&& registerOperand s rs) noCarry)

/-- OR Rd, Rs (R141). -/
def execOr (rd rs : RegIndex) (s : State) : Result :=
  .next (writeResult s rd (registerOperand s rd ||| registerOperand s rs) noCarry)

/-- XOR Rd, Rs (R142). -/
def execXor (rd rs : RegIndex) (s : State) : Result :=
  .next (writeResult s rd (registerOperand s rd ^^^ registerOperand s rs) noCarry)

/-- NOT Rd, Rs: the complement of Rs into Rd, whose old value is not read (R143). -/
def execNot (rd rs : RegIndex) (s : State) : Result :=
  .next (writeResult s rd (~~~registerOperand s rs) noCarry)

end Sys2Proof.Machine
end

