-- ==== Sys2Proof/Machine/Move.lean ====
section
/-! DEFINITION. Data movement between immediate and registers (41_move.md): MOVI, MOV. -/

namespace Sys2Proof.Machine

/-- MOVI Rd, imm9: "Rd <- zero-extend(imm9)" (R110). -/
def execMovi (rd : RegIndex) (imm : Imm9) (s : State) : Result :=
  .next (writeResult s rd (immediateOperand imm) noCarry)

/-- MOV Rd, Rs: "Rd <- Rs" (R111). -/
def execMov (rd rs : RegIndex) (s : State) : Result :=
  .next (writeResult s rd (registerOperand s rs) noCarry)

end Sys2Proof.Machine
end

