-- ==== Sys2Proof/Machine/Shift.lean ====
section
/-! DEFINITION. Single-bit shifts (45_shift.md): SHL, SHR. -/

namespace Sys2Proof.Machine

/-- SHL Rd: logical shift left by one; the old C is not shifted in (R150). -/
def execShl (rd : RegIndex) (s : State) : Result :=
  let a := registerOperand s rd
  .next (writeResult s rd (a <<< 1) (shlCarry a))

/-- SHR Rd: logical shift right by one; a zero enters bit 15 (R151). -/
def execShr (rd : RegIndex) (s : State) : Result :=
  let a := registerOperand s rd
  .next (writeResult s rd (a >>> 1) (shrCarry a))

end Sys2Proof.Machine
end

