-- ==== Sys2Proof/Machine/Dispatch.lean ====
section
/-! DEFINITION. The dispatch of the step: the effect of each instruction (40_step_halt_nop.md R94), after the fetch and the
pc advance have happened. -/

namespace Sys2Proof.Machine

def exec (i : Instr) (s : State) : Host.Outcome State Fault Refusal :=
  match i with
  | .halt => Sys2Proof.Machine.execHalt s
  | .movi rd imm => Sys2Proof.Machine.execMovi rd imm s
  | .mov rd rs => Sys2Proof.Machine.execMov rd rs s
  | .load rd rs => Sys2Proof.Machine.execLoad rd rs s
  | .store rd rs => Sys2Proof.Machine.execStore rd rs s
  | .add rd rs => Sys2Proof.Machine.execAdd rd rs s
  | .sub rd rs => Sys2Proof.Machine.execSub rd rs s
  | .and rd rs => Sys2Proof.Machine.execAnd rd rs s
  | .or rd rs => Sys2Proof.Machine.execOr rd rs s
  | .xor rd rs => Sys2Proof.Machine.execXor rd rs s
  | .not rd rs => Sys2Proof.Machine.execNot rd rs s
  | .shl rd => Sys2Proof.Machine.execShl rd s
  | .shr rd => Sys2Proof.Machine.execShr rd s
  | .jmp rs => Sys2Proof.Machine.execJmp rs s
  | .jz rs => Sys2Proof.Machine.execJz rs s
  | .nop => Sys2Proof.Machine.execNop s

end Sys2Proof.Machine
end

