-- ==== Sys2Proof/Machine/Step.lean ====
section
/-! DEFINITION. The one atomic transition `step()` (40_step_halt_nop.md section 2). -/

namespace Sys2Proof.Machine

/-- `step()`: a halted machine keeps its state (R91); otherwise fetch (R92), advance pc (R93), decode and dispatch (R94).
The value step() returns is `running` of the next state (R95). -/
def step (s : State) : Host.Outcome State Fault Refusal :=
  if s.halted then .next s else exec (decode (fetch s)) (advancePc s)

/-- `s` with the instruction whose bits are `w` stored where the next step fetches, so that it runs exactly that (log 11). -/
def State.withFetchWord (s : State) (nbits w : Nat) : State := placeAtPc s (BitVec.ofNat 16 (w % 2 ^ nbits))

end Sys2Proof.Machine
end

