-- ==== Sys2Proof/Machine/Assembler.lean ====
section
/-! DEFINITION. The assembler (30_encoding.md section 8, R70 to R84): software around the block, whose observable translation
from source text to memory the spec gives. No step of the machine uses it; the host loads programs with it. -/

namespace Sys2Proof.Machine

/-- A piece of source text. -/
abbrev Text := List Char

/-! ### Lines and tokens (R70) -/

/-- The pieces of a text between the characters `cut` picks. -/
def splitAtChars (cut : Char → Bool) : Text → List Text
  | [] => [[]]
  | c :: rest =>
    match splitAtChars cut rest with
    | [] => [[]]
    | piece :: pieces => if cut c then [] :: piece :: pieces else (c :: piece) :: pieces

/-- The lines of a source text. DESIGN CHOICE (log 23): a line feed ends a line; safe for the machine. -/
def sourceLines (source : Text) : List Text := splitAtChars (· == '\n') source

/-- A line without its comment: "`;` starts a trailing comment". -/
def stripComment (line : Text) : Text := line.takeWhile (· != ';')

/-- A line without white space at its ends. -/
def trimLine (line : Text) : Text :=
  ((line.dropWhile Char.isWhitespace).reverse.dropWhile Char.isWhitespace).reverse

/-- The tokens of a line: "Whitespace and commas both act as token separators." -/
def tokens (line : Text) : List Text :=
  (splitAtChars (fun c => c.isWhitespace || c == ',') line).filter (fun t => !t.isEmpty)

/-! ### Statements -/

/-- What a source line is. -/
inductive Statement
  | blank
  | label (name : Text)
  | org (operands : List Text)
  | word (operands : List Text)
  | instruction (op : Opcode) (operands : List Text)
  | unknown (name : Text)
  deriving DecidableEq, Repr

/-- The statement on a line (R70, R71). DESIGN CHOICE (log 20): directive names are matched case-insensitively, as mnemonics
are; safe for the machine. DESIGN CHOICE (log 28): a first token that is neither of the two directives nor a mnemonic, such as
`.BYTE`, is an unknown mnemonic, not a malformed directive; safe for the machine. DESIGN CHOICE (log 29): every line that
ends in `:` is a label line; safe for the machine. DESIGN CHOICE (R71, N12, log 31): the name of a label is all that stands
before its colon, so the white space of `loop :` is part of the name, which the default ASM_IDENT refuses and no token
matches; a line such as `start: NOP` is no label line, and `start:` is an unknown mnemonic there; safe for the machine. -/
def parseLine (raw : Text) : Statement :=
  let line := trimLine (stripComment raw)
  if line.getLast? == some ':' then .label (upperCase line.dropLast)
  else
    match tokens line with
    | [] => .blank
    | first :: operands =>
      if upperCase first == ".ORG".toList then .org operands
      else if upperCase first == ".WORD".toList then .word operands
      else
        match operationNamed first with
        | some op => .instruction op operands
        | none => .unknown first

/-! ### Operands (R75 to R77) -/

/-- The value of a digit in a base. -/
def digitIn (base : Nat) (c : Char) : Option Nat :=
  ("0123456789ABCDEF".toList.idxOf? c.toUpper).filter (fun n => decide (n < base))

/-- The number a run of digits denotes in a base. -/
def numberIn (base : Nat) (digits : Text) : Option Nat :=
  if digits.isEmpty then none
  else digits.foldlM (fun n c => (digitIn base c).map (fun d => n * base + d)) 0

/-- A numeric literal, not yet masked: decimal, `0x` or `0X` hexadecimal, or what ASM_EXTRA_BASES admits (R77, D16).
DESIGN CHOICE (N10, log 26): a literal with a leading zero, such as 017, is what ASM_EXTRA_BASES says it is, and decimal
where that admits no such base, as by default; safe for the machine. DESIGN CHOICE (N10, log 31): a sign makes no literal, so
`-1` is one only where ASM_EXTRA_BASES says so, a `0x` literal is never asked of it, and hexadecimal digits are of either case;
safe for the machine. -/
def literal (cfg : AsmConfig) (t : Text) : Option Nat :=
  match t with
  | '0' :: 'x' :: digits => numberIn 16 digits
  | '0' :: 'X' :: digits => numberIn 16 digits
  | '0' :: digit :: digits =>
    match cfg.extraBases ('0' :: digit :: digits) with
    | some n => some n
    | none => numberIn 10 (digit :: digits)
  | t =>
    match numberIn 10 t with
    | some n => some n
    | none => cfg.extraBases t

/-- A numeric literal: "out-of-range values are masked to 16 bits rather than rejected" (R77). -/
def literalValue (cfg : AsmConfig) (t : Text) : Option Nat := (literal cfg t).map (· % 65536)

/-- An operand without its optional parentheses (R75). -/
def withoutParens (t : Text) : Text :=
  match t with
  | '(' :: rest => if rest.getLast? == some ')' then rest.dropLast else t
  | t => t

/-- A register operand: "`Rn` syntax, optionally parenthesized, n in [0,7]" (R75). DESIGN CHOICE (D17, log 20): `r` is
accepted like `R`, and n is one digit; safe for the machine. -/
def registerNamed (t : Text) : Option RegIndex :=
  match withoutParens t with
  | [r, digit] =>
    if r == 'R' || r == 'r' then
      match digitIn 8 digit with
      | some n => if h : n < 8 then some ⟨n, h⟩ else none
      | none => none
    else none
  | _ => none

/-- The label table, the latest definition first (R72). -/
abbrev LabelTable := List (Text × Nat)

/-- The address a label name is bound to; "last write wins" (R71). -/
def labelAddress (labels : LabelTable) (t : Text) : Option Nat :=
  (labels.find? (fun entry => entry.1 == upperCase t)).map (·.2)

/-- An immediate or label operand: a label's address, otherwise a numeric literal (R76). DESIGN CHOICE (D17, D22, log 30): no
register is allowed here, so a token Rn that ASM_IDENT admits as a label and that is bound is that label, and any other is
refused; safe for the machine. -/
def operandValue (cfg : AsmConfig) (labels : LabelTable) (t : Text) : Option Nat :=
  match labelAddress labels t with
  | some address => some address
  | none => literalValue cfg t

/-! ### Results (R83) -/

/-- The assembly-time errors (R83). None is a hardware event (60_exceptions.md R182). -/
inductive AsmMessage
  /-- "Unknown: <name>" (R78) -/
  | unknown (name : Text)
  /-- "Invalid register", for the source position (R75, D17) -/
  | invalidRegister
  /-- "Invalid Rd", for the destination position (R75, D17) -/
  | invalidRd
  /-- "Program too large" (R82) -/
  | programTooLarge
  /-- malformed directive, no text given -/
  | malformedDirective
  /-- missing/invalid operand, no text given (R79, D17) -/
  | operandError
  /-- a jump target above 511, no text given (R81) -/
  | targetTooLarge
  deriving DecidableEq, Repr

/-- The message texts the source gives; it gives none for the other errors (R83). -/
def AsmMessage.text : AsmMessage → Option String
  | .unknown name => some ("Unknown: " ++ String.ofList name)
  | .invalidRegister => some "Invalid register"
  | .invalidRd => some "Invalid Rd"
  | .programTooLarge => some "Program too large"
  | .malformedDirective | .operandError | .targetTooLarge => none

/-- Source the spec says a model refuses rather than guesses. -/
inductive AsmRefusal
  /-- `.ORG 0x10000`: whether the cursor can hold it is not stated (U23, log 21). Safe: toolchain only. -/
  | orgNotRepresentable
  /-- a label name that ASM_IDENT does not admit (D22, log 19). Safe: toolchain only. -/
  | identifierOpen
  deriving DecidableEq, Repr

/-- Why a line stops the assembly. -/
inductive AsmFailure
  | error (message : AsmMessage)
  | refused (why : AsmRefusal)
  deriving DecidableEq, Repr

/-- The result of an assembly: the loaded memory, or the first failure with its 1-based line. A failed assembly answers no
memory: "no partial memory write guarantee is made" (R83, U20, log 22). -/
inductive AsmResult
  | ok (mem : Memory)
  | error (message : AsmMessage) (line : Nat)
  | refused (why : AsmRefusal) (line : Nat)
  deriving DecidableEq, Repr

/-! ### The two passes -/

/-- The address an `.ORG` gives (R73). -/
def orgAddress (cfg : AsmConfig) (operands : List Text) : Except AsmFailure Nat :=
  match operands with
  | [t] =>
    match literal cfg t with
    | none => .error (.error .malformedDirective)
    | some n => if n = 0x10000 then .error (.refused .orgNotRepresentable) else .ok (n % 65536)
  | _ => .error (.error .malformedDirective)

/-- Pass 1 on one statement: the virtual program counter and the label table (R78). "Any recognized mnemonic advances the
counter by exactly one word regardless of operand form". DESIGN CHOICE (log 25): the counter is a plain number that goes on
past 0xFFFF to 0x10000 and does not wrap; safe for the machine. -/
def passOneLine (cfg : AsmConfig) (at_ : Nat × LabelTable) : Statement → Except AsmFailure (Nat × LabelTable)
  | .blank => .ok at_
  | .label name => if cfg.ident name then .ok (at_.1, (name, at_.1) :: at_.2) else .error (.refused .identifierOpen)
  | .org operands => (orgAddress cfg operands).map (fun a => (a, at_.2))
  | .word [_] => .ok (at_.1 + 1, at_.2)
  | .word [_, _] => .ok at_
  | .word _ => .error (.error .malformedDirective)
  | .instruction _ _ => .ok (at_.1 + 1, at_.2)
  | .unknown name => .error (.error (.unknown name))

/-- The register a statement names in its Rd field, which this model takes for D17's destination position (log 30). -/
def destinationOperand (t : Text) : Except AsmFailure RegIndex :=
  match registerNamed t with
  | some r => .ok r
  | none => .error (.error .invalidRd)

/-- The register a statement names in its Rs field, which this model takes for D17's source position (log 30). -/
def sourceOperand (t : Text) : Except AsmFailure RegIndex :=
  match registerNamed t with
  | some r => .ok r
  | none => .error (.error .invalidRegister)

/-- The words of a jump: the register form is one word; a label or literal target is loaded into R7 first, and must fit the
9-bit immediate (R80, R81). A token of the form Rn is a register before label lookup (D22). DESIGN CHOICE (N11,
log 20): an operand that is none of the three, such as R9, is the class missing/invalid operand; safe for the machine. DEDUCED
(R77, R79, R81, log 31): a literal target is masked to 16 bits before it is held to the limit, and the limit is checked before
any word is emitted; safe for the machine. The zeros in the fields a jump does not use are decision D9 (log 9). -/
def jumpWords (cfg : AsmConfig) (labels : LabelTable) (op : Opcode) (t : Text) : Except AsmFailure (List Word) :=
  match registerNamed t with
  | some r => .ok [encodeRegisterPair (opcodeNumber op).toNat 0 r.val]
  | none =>
    match operandValue cfg labels t with
    | none => .error (.error .operandError)
    | some target =>
      if target > 511 then .error (.error .targetTooLarge)
      else .ok [encodeImmediate 7 target, encodeRegisterPair (opcodeNumber op).toNat 0 7]

/-- The words an instruction statement emits (R79). DESIGN CHOICE (N11, log 27): the number of operands is checked before
any operand is read, so `MOV R9` and `SHL R9, R1` are the class missing/invalid operand; safe for the machine. DESIGN CHOICE
(R121, D17, log 30): a bad register in the Rd field is "Invalid Rd" in every statement, in `STORE R9, R1` too, where R121 calls
that register a source, and in `SHL R9` and `SHR R9`, where it is source and destination; safe for the machine. -/
def instructionWords (cfg : AsmConfig) (labels : LabelTable) (op : Opcode) (operands : List Text) :
    Except AsmFailure (List Word) :=
  match op, operands with
  | .halt, [] => .ok [encodeRegisterPair (opcodeNumber op).toNat 0 0]
  | .nop, [] => .ok [encodeRegisterPair (opcodeNumber op).toNat 0 0]
  | .halt, _ => .error (.error .operandError)
  | .nop, _ => .error (.error .operandError)
  | .movi, [d, v] =>
    match destinationOperand d, operandValue cfg labels v with
    | .error e, _ => .error e
    | .ok _, none => .error (.error .operandError)
    | .ok rd, some value => .ok [encodeImmediate rd.val value]
  | .movi, _ => .error (.error .operandError)
  | .shl, [d] => (destinationOperand d).map (fun rd => [encodeRegisterPair (opcodeNumber op).toNat rd.val 0])
  | .shr, [d] => (destinationOperand d).map (fun rd => [encodeRegisterPair (opcodeNumber op).toNat rd.val 0])
  | .shl, _ => .error (.error .operandError)
  | .shr, _ => .error (.error .operandError)
  | .jmp, [t] => jumpWords cfg labels op t
  | .jz, [t] => jumpWords cfg labels op t
  | .jmp, _ => .error (.error .operandError)
  | .jz, _ => .error (.error .operandError)
  | _, [d, r] =>
    match destinationOperand d, sourceOperand r with
    | .error e, _ => .error e
    | .ok _, .error e => .error e
    | .ok rd, .ok rs => .ok [encodeRegisterPair (opcodeNumber op).toNat rd.val rs.val]
  | _, _ => .error (.error .operandError)

/-- One word emitted at the cursor: "Emission fails with 'Program too large' if the cursor reaches memorySize", checked when
a word is about to be emitted (R82, conflict C4). -/
def emitWord (size : Nat) (at_ : Nat × Memory) (w : Word) : Except AsmFailure (Nat × Memory) :=
  if at_.1 ≥ size then .error (.error .programTooLarge) else .ok (at_.1 + 1, at_.2.busWrite size at_.1 w)

/-- Words emitted in order. -/
def emitWords (size : Nat) : List Word → Nat × Memory → Except AsmFailure (Nat × Memory)
  | [], at_ => .ok at_
  | w :: ws, at_ =>
    match emitWord size at_ w with
    | .ok at' => emitWords size ws at'
    | .error e => .error e

/-- Pass 2 on one statement: the emission cursor and the memory (R73, R74, R79). The two-operand `.WORD` pokes through the
Bus, which absorbs an address out of bounds (R33), and moves no cursor. DESIGN CHOICE (log 29): such a poke is not "Program
too large", which R82 gives for the cursor; safe for the machine. -/
def passTwoLine (cfg : AsmConfig) (labels : LabelTable) (size : Nat) (at_ : Nat × Memory) :
    Statement → Except AsmFailure (Nat × Memory)
  | .blank => .ok at_
  | .label _ => .ok at_
  | .org operands => (orgAddress cfg operands).map (fun a => (a, at_.2))
  | .word [v] =>
    match operandValue cfg labels v with
    | none => .error (.error .malformedDirective)
    | some value => emitWord size at_ (BitVec.ofNat 16 value)
  | .word [a, v] =>
    match literalValue cfg a, operandValue cfg labels v with
    | some address, some value => .ok (at_.1, at_.2.busWrite size address (BitVec.ofNat 16 value))
    | _, _ => .error (.error .malformedDirective)
  | .word _ => .error (.error .malformedDirective)
  | .instruction op operands =>
    match instructionWords cfg labels op operands with
    | .ok ws => emitWords size ws at_
    | .error e => .error e
  | .unknown name => .error (.error (.unknown name))

/-- A pass over the statements from a line number on, stopping at the first failure with its line. -/
def overLines {σ : Type} (pass : σ → Statement → Except AsmFailure σ) :
    Nat → List Statement → σ → Except (AsmFailure × Nat) σ
  | _, [], s => .ok s
  | line, statement :: rest, s =>
    match pass s statement with
    | .ok s' => overLines pass (line + 1) rest s'
    | .error e => .error (e, line)

/-- The result of a failure at a line. -/
def asmFailed : AsmFailure × Nat → AsmResult
  | (.error message, line) => .error message line
  | (.refused why, line) => .refused why line

/-- `assemble(sourceText, memory, memorySize)` (R83): pass 1 builds the whole label table, pass 2 emits. Pass 1 counts an
expanded jump as one word where pass 2 emits two, and that drift is kept (R84). -/
def assemble (cfg : AsmConfig) (source : Text) (mem : Memory) (size : Nat) : AsmResult :=
  let statements := (sourceLines source).map parseLine
  match overLines (passOneLine cfg) 1 statements (0, []) with
  | .error e => asmFailed e
  | .ok (_, labels) =>
    match overLines (passTwoLine cfg labels size) 1 statements (0, mem) with
    | .error e => asmFailed e
    | .ok (_, loaded) => .ok loaded

end Sys2Proof.Machine
end

