-- ==== Sys2Proof/Machine/Interface.lean ====
section
/-! DEFINITION. The block's abstract interface to the host (40_step_halt_nop.md R90, R95, R96; 10_state.md R25; 20_memory.md
R45; 70_reset_and_hazards.md R192, R194). -/

namespace Sys2Proof.Machine

/-! ### Read-only state accessors (R25) -/

/-- The register file as the host sees it. -/
def hostRegister (s : State) (r : RegIndex) : Word := readReg s r

/-- The program counter as the host sees it. -/
def hostPc (s : State) : Word := s.pc

/-- The flag register as the host sees it: the packed Word FLAGS (R18). -/
def hostFlags (s : State) : Word := s.flags.pack

/-- The halted status as the host sees it. -/
def hostHalted (s : State) : Bool := s.halted

/-- The `running` output after a step, the value `step()` returns: `!halted` (R95). -/
def running (s : State) : Bool := !s.halted

/-! ### Host access to memory (R45) -/

/-- A host read of a memory cell through the Bus. -/
def hostPeek (s : State) (addr : Word) : Word := memRead s addr

/-- A host write of a memory cell through the Bus. It falls between steps only; `step` never includes one (D14, log 14). -/
def hostPoke (s : State) (addr v : Word) : State := memWrite s addr v

/-- A program loaded from source text by the assembler (R194); a failed assembly loads nothing (U20, log 22). -/
def hostLoad (cfg : AsmConfig) (source : Text) (s : State) : Option State :=
  match assemble cfg source s.mem s.memorySize with
  | .ok mem => some { s with mem := mem }
  | .error _ _ => none
  | .refused _ _ => none

/-! ### Events -/

/-- The input events of the block (R90). -/
structure Events where
  step : Bool
  reset : Bool
  deriving DecidableEq, Repr

/-- What the events that come together do. With neither, nothing changes (R97). DESIGN CHOICE (D11, log 12): reset wins over
a step, which is then not performed; safe, the sources cannot reach it. -/
def onEvents (e : Events) (s : State) : Result :=
  if e.reset then .next (hostReset s) else if e.step then step s else .next s

/-! ### run() -/

/-- `run()` with a bound on the steps: the halted state it ends in and the number of completed steps, none where the bound
is used up before the machine halts (R96; `run()` itself does not return on a program that never halts). The step that
executes HALT is counted (conflict C8). DESIGN CHOICE (D12, log 13): a halted machine answers 0; safe for the machine. -/
def runWithin : Nat → State → Option (State × Nat)
  | bound, s =>
    if s.halted then some (s, 0)
    else
      match bound with
      | 0 => none
      | k + 1 =>
        match step s with
        | .next t => (runWithin k t).map (fun r => (r.1, r.2 + 1))
        | .fault _ => none
        | .refused _ => none

end Sys2Proof.Machine
end

