-- ==== Sys2Proof/Safety.lean ====
section
/-! DEFINITION. What counts as a good state and a safe run, and the frame terms that claims use. -/

namespace Sys2Proof.Machine

/-- The invariant of the model: memory is in canonical form, it lists no cell at or above MEMORY_SIZE (20_memory.md R30), and
MEMORY_SIZE is in its range (00_scope.md R4). -/
abbrev State.Inv (s : State) : Prop :=
  s.mem.wf = true ∧ s.mem.within s.memorySize = true ∧ memorySizeInRange s.memorySize = true

/-- A safe run: from a good state, every number of steps ends in a good state, with no fault and no refusal. -/
def State.Safe (s : State) : Prop := ∀ k, ∃ t : State, Host.Core.run Sys2Proof.core k s = .next t ∧ t.Inv

/-- Every Word of memory the Bus can name reads as before, and so does the size of memory. -/
def SameMemory (s t : State) : Prop := t.memorySize = s.memorySize ∧ ∀ a : Word, memRead t a = memRead s a

/-- Every register but `d` reads as before. -/
def SameRegsBut (d : RegIndex) (s t : State) : Prop := ∀ q : RegIndex, q ≠ d → readReg t q = readReg s q

/-- Every register reads as before. -/
def SameRegs (s t : State) : Prop := ∀ q : RegIndex, readReg t q = readReg s q

/-- The frame of an instruction that writes `x[d]` and the flags: all else is as before, pc and the halted status too (pc
was advanced by the step before the meaning ran). -/
def OnlyRegAndFlags (d : RegIndex) (s t : State) : Prop :=
  SameRegsBut d s t ∧ SameMemory s t ∧ t.pc = s.pc ∧ t.halted = s.halted

/-- The three flags hold Z and N of the Word `v` and the Carry `c`, each said in its own terms (10_state.md R19, R20). -/
def FlagsFor (t : State) (v : Word) (c : Prop) : Prop :=
  (t.flags.z = true ↔ v.toNat = 0) ∧ (t.flags.n = true ↔ 32768 ≤ v.toNat) ∧ (t.flags.c = true ↔ c)

end Sys2Proof.Machine
end

