-- ==== Sys2Proof/Certificates/Slice0/Obligations.lean ====
section
/-! DEFINITION. The statements for the provers. Each says in its docstring which sentence of the spec it formalises, and which
log entry it rests on where the spec's text is its own choice. -/

open Sys2Proof Sys2Proof.Machine

/-! ### Construction, reset, the step -/

/-- 70_reset_and_hazards.md R190: after construction every register, pc, flag and memory cell is 0 and the machine is not
halted, for every memory size. -/
def Obligations.ConstructedStateIsAllZero : Prop :=
  ∀ n, memorySizeInRange n = true →
    (∀ r, readReg (State.constructed n) r = 0) ∧ (State.constructed n).pc = 0 ∧
    (State.constructed n).flags.z = false ∧ (State.constructed n).flags.c = false ∧
    (State.constructed n).flags.n = false ∧ (State.constructed n).halted = false ∧
    (State.constructed n).memorySize = n ∧ ∀ a, a < n → (State.constructed n).mem.cell a = 0

/-- 70_reset_and_hazards.md R191: `reset()` zeroes all registers, pc and flags, clears halted, and does not touch memory. -/
def Obligations.HostResetZeroesEngineKeepsMemory : Prop :=
  ∀ s : State,
    (∀ r, readReg (hostReset s) r = 0) ∧ (hostReset s).pc = 0 ∧ (hostReset s).flags.z = false ∧
    (hostReset s).flags.c = false ∧ (hostReset s).flags.n = false ∧ (hostReset s).halted = false ∧
    (hostReset s).memorySize = s.memorySize ∧ ∀ a, (hostReset s).mem.cell a = s.mem.cell a

/-- 70_reset_and_hazards.md section 1 (entry point): the first step after construction or reset() fetches address 0. -/
def Obligations.FirstStepAfterResetRunsAddressZero : Prop :=
  (∀ s : State, step (hostReset s) = exec (decode (memRead s 0)) (setPc (hostReset s) 1)) ∧
  ∀ n, step (State.constructed n) =
    exec (decode (memRead (State.constructed n) 0)) (setPc (State.constructed n) 1)

/-- 40_step_halt_nop.md R91: a halted step has no side effects, however often it is taken, and reset() leaves the halted
state. -/
def Obligations.HaltedMachineStaysUntilReset : Prop :=
  ∀ s : State, s.halted = true →
    (∀ k, Host.Core.run core k s = .next s) ∧ (hostReset s).halted = false

/-- 40_step_halt_nop.md section 2: a step of a machine that is not halted is `exec` of the decoded Word at pc, in the state
whose pc is advanced by one. The wrap of the advance at 0xFFFF is the spec's decision D7 (log 7). -/
def Obligations.StepRunsDecodedInstruction : Prop :=
  ∀ (s : State) (i : Instr), s.halted = false → decode (memRead s s.pc) = i →
    step s = exec i (setPc s (s.pc + 1))

/-- 40_step_halt_nop.md R95: the value of step() is `!halted` after the effect; it is false exactly when the step was entered
halted or the instruction executed was HALT, and the step never raises an error. -/
def Obligations.StepReturnsFalseExactlyOnHalt : Prop :=
  ∀ s : State, ∃ t, step s = .next t ∧ running t = !t.halted ∧
    (running t = false ↔ s.halted = true ∨ decode (memRead s s.pc) = .halt)

/-- A reset event, alone or together with a step event (both together: decision D11, log 12), starts the program in memory
again: the engine is zeroed, memory is kept, and the next step runs the Word at address 0. With no event nothing changes; the
events themselves are decision D10 (log 16)
(40_step_halt_nop.md section 2, 70_reset_and_hazards.md section 1). -/
def Obligations.ResetEventRestartsTheProgram : Prop :=
  ∀ s : State, onEvents ⟨false, false⟩ s = .next s ∧ onEvents ⟨true, false⟩ s = step s ∧
    ∀ stepToo : Bool, ∃ t, onEvents ⟨stepToo, true⟩ s = .next t ∧ (∀ r, readReg t r = 0) ∧ t.pc = 0 ∧
      t.flags = ⟨false, false, false⟩ ∧ t.halted = false ∧ SameMemory s t ∧
      step t = exec (decode (memRead s 0)) (setPc t 1)

/-! ### Invariant -/

/-- The machine after construction, of every size in range, meets the invariant, and so does `State.reset`, which is that
machine at the model's default size 65536 (decision D3, log 1). -/
def Obligations.ConstructedStateMeetsInvariant : Prop :=
  State.reset = State.constructed 65536 ∧ State.reset.Inv ∧ ∀ n, memorySizeInRange n = true → (State.constructed n).Inv

/-- Every step keeps the invariant: memory stays in canonical form and within MEMORY_SIZE, whose value stays in range
(20_memory.md section 1; the canonical form is the model's, log 10; the range is decision D3, log 1). -/
def Obligations.StepKeepsInvariant : Prop :=
  ∀ s t : State, s.Inv → step s = .next t → t.Inv ∧ t.memorySize = s.memorySize

/-- From every state that meets the invariant, no number of steps faults or is refused, and the invariant holds all along
(60_exceptions.md section 1, decision D21, log 18). -/
def Obligations.EveryRunIsSafe : Prop := ∀ s : State, s.Inv → s.Safe

/-- What the host can do between steps keeps the invariant: reset(), a Bus write of any Word, and placing a Word at pc (the
model's own way to load one instruction, log 11; the canonical form of memory: log 10). -/
def Obligations.HostAccessKeepsInvariant : Prop :=
  ∀ s : State, s.Inv → (hostReset s).Inv ∧ (∀ a v : Word, (hostPoke s a v).Inv) ∧
    ∀ nbits w : Nat, (s.withFetchWord nbits w).Inv

/-- A program loaded by the assembler keeps the invariant (its canonical form: log 10) and touches no engine state
(30_encoding.md section 8). -/
def Obligations.AssemblyKeepsInvariant : Prop :=
  ∀ (cfg : AsmConfig) (source : Text) (s t : State), s.Inv → hostLoad cfg source s = some t →
    t.Inv ∧ SameRegs s t ∧ t.pc = s.pc ∧ t.flags = s.flags ∧ t.halted = s.halted ∧ t.memorySize = s.memorySize

/-- Two canonical memories with the same Word in every cell are equal data (the form is the model's, log 10). -/
def Obligations.EqualMemoriesAreEqualData : Prop :=
  ∀ m₁ m₂ : Memory, m₁.wf = true → m₂.wf = true → (∀ a, m₁.cell a = m₂.cell a) → m₁ = m₂

/-! ### Registers, the Bus -/

/-- 10_state.md R10: eight Words individually addressable by index, with no aliases, banks or windows: a register write is
read back from its own index, and every other register keeps its Word. -/
def Obligations.RegistersAreIndividuallyAddressable : Prop :=
  ∀ (s : State) (d : RegIndex) (v : Word), readReg (writeReg s d v) d = v ∧
    ∀ q, q ≠ d → readReg (writeReg s d v) q = readReg s q

/-- 20_memory.md R31: the Bus read answers the stored Word in bounds and 0x0000 at and above MEMORY_SIZE. -/
def Obligations.BusReadAnswersCellOrZero : Prop :=
  ∀ (s : State) (addr : Word),
    (addr.toNat < s.memorySize → memRead s addr = s.mem.cell addr.toNat) ∧
    (s.memorySize ≤ addr.toNat → memRead s addr = 0x0000)

/-- 20_memory.md R32: the Bus write stores the Word in bounds, does nothing at and above MEMORY_SIZE, and changes no other
cell and nothing else. -/
def Obligations.BusWriteStoresOneWordOrNothing : Prop :=
  ∀ (s : State) (addr v : Word),
    (addr.toNat < s.memorySize → (memWrite s addr v).mem.cell addr.toNat = v ∧ memRead (memWrite s addr v) addr = v) ∧
    (s.memorySize ≤ addr.toNat → memWrite s addr v = s) ∧
    (∀ a, a ≠ addr.toNat → (memWrite s addr v).mem.cell a = s.mem.cell a) ∧
    SameRegs s (memWrite s addr v) ∧ (memWrite s addr v).pc = s.pc ∧ (memWrite s addr v).flags = s.flags ∧
    (memWrite s addr v).halted = s.halted ∧ (memWrite s addr v).memorySize = s.memorySize

/-! ### Encoding -/

/-- Decoding the canonical word of an instruction gives it back, with every operand at every value (30_encoding.md section 7;
the layout and the opcode numbers are the spec's decisions D1, D2, D9, log 2, 3, 9). -/
def Obligations.DecodeOfEncodeIsIdentity : Prop := ∀ i : Instr, i.wellFormed = true → decode (encode i) = i

/-- Encoding what a Word decodes to gives the Word back with the bits its row ignores cleared, the masks being those of the
opcode table's `ignored` ranges (decisions D1, D2, D8, D9, log 2, 3, 8, 9). -/
def Obligations.EncodeOfDecodeClearsIgnoredBits : Prop :=
  ∀ w : Word, encode (decode w) = w &&&
    match decode w with
    | .halt | .nop => 0xF000
    | .movi _ _ => 0xFFFF
    | .mov _ _ | .load _ _ | .store _ _ | .add _ _ | .sub _ _ | .and _ _ | .or _ _ | .xor _ _ | .not _ _ => 0xFFC0
    | .shl _ | .shr _ => 0xFE00
    | .jmp _ | .jz _ => 0xF1C0

/-- Every Word is the instruction of exactly one row: the one whose match is the Word under the mask 0xF000
(30_encoding.md sections 4 and 6, decisions D1, D2, log 2, 3; that the other bits never matter is decision D8, log 8). -/
def Obligations.EveryWordIsOneRowsInstruction : Prop :=
  ∀ (w : Word) (op : Opcode),
    (decode w).opcode = op ↔ w &&& 0xF000 = BitVec.ofNat 16 (4096 * (opcodeNumber op).toNat)

/-- The codec's laws for arguments in range (30_encoding.md section 7, marked derived there; decisions D1, D2, D9, log 2, 3,
9). -/
def Obligations.CodecLawsHoldInRange : Prop :=
  (∀ op rd rs : Nat, (CodecCall.registerPair op rd rs).wellFormed = true →
    (decodeOpcode (encodeRegisterPair op rd rs)).toNat = op ∧ (decodeRd (encodeRegisterPair op rd rs)).val = rd ∧
    (decodeRs (encodeRegisterPair op rd rs)).val = rs ∧ encodeRegisterPair op rd rs &&& 0x003F = 0) ∧
  (∀ rd imm : Nat, (CodecCall.immediate rd imm).wellFormed = true →
    decodeOpcode (encodeImmediate rd imm) = 1 ∧ (decodeRd (encodeImmediate rd imm)).val = rd ∧
    (decodeImm9 (encodeImmediate rd imm)).toNat = imm) ∧
  (∀ w : Word, decodeOpcode w = 1 → encodeImmediate (decodeRd w).val (decodeImm9 w).toNat = w) ∧
  (∀ w : Word, encodeRegisterPair (decodeOpcode w).toNat (decodeRd w).val (decodeRs w).val = w &&& 0xFFC0)

/-- The encode functions mask their arguments and never validate them: an `rd` of 9 encodes as register 1, an imm9 of 0x3FF as
0x1FF (30_encoding.md section 3; masking the opcode is decision D9, log 9). -/
def Obligations.CodecMasksItsArguments : Prop :=
  (∀ op rd rs : Nat, encodeRegisterPair op rd rs = encodeRegisterPair (op % 16) (rd % 8) (rs % 8)) ∧
  (∀ rd imm : Nat, encodeImmediate rd imm = encodeImmediate (rd % 8) (imm % 512))

/-- 30_encoding.md R61: opcodeForMnemonic is a closed table for the 16 mnemonics, matched case-insensitively, and any other
name is not found. -/
def Obligations.MnemonicTableIsClosedAndCaseInsensitive : Prop :=
  (∀ (name : List Char) (op : Opcode), upperCase name = (mnemonic op).toList →
    opcodeForMnemonic name = some (opcodeNumber op)) ∧
  (∀ name : List Char, (∀ op : Opcode, upperCase name ≠ (mnemonic op).toList) → opcodeForMnemonic name = none) ∧
  (∀ op : Opcode, mnemonic op ∈
    ["HALT", "MOVI", "MOV", "LOAD", "STORE", "ADD", "SUB", "AND", "OR", "XOR", "NOT", "SHL", "SHR", "JMP", "JZ", "NOP"])

/-- Words written out bit by bit from the spec's encodings decode to the instructions they stand for (decisions D1, D2, log 2,
3), the ignored bits set in some: that those are ignored is decision D8 (log 8). -/
def Obligations.SampleWordsDecode : Prop :=
  decode 0b0000111111111111 = .halt ∧ decode 0b0001111100000101 = .movi 7 261 ∧
  decode 0b0010010001000000 = .mov 2 1 ∧ decode 0b0011100001000000 = .load 4 1 ∧
  decode 0b0100100011000000 = .store 4 3 ∧ decode 0b0101000001000000 = .add 0 1 ∧
  decode 0b0110001010000000 = .sub 1 2 ∧ decode 0b1010101111001101 = .not 5 7 ∧
  decode 0b1011000111111111 = .shl 0 ∧ decode 0b1101111011111111 = .jmp 3 ∧
  decode 0b1110000100000000 = .jz 4 ∧ decode 0b1111000000000000 = .nop

/-! ### What each instruction does

`exec` runs after the step's fetch and pc advance. Each statement says that the instruction completes in every state, what
it writes, and its frame. Z and N are decision D5 (log 5); the cleared C is decision D6 (log 6). -/

/-- MOVI: Rd takes the zero-extended imm9; N is 0, C is cleared; nothing else changes (41_move.md). -/
def Obligations.MoviLoadsZeroExtendedImmediate : Prop :=
  ∀ (d : RegIndex) (imm : Imm9) (s : State), ∃ t, exec (.movi d imm) s = .next t ∧
    (readReg t d).toNat = imm.toNat ∧ FlagsFor t (readReg t d) False ∧ t.flags.n = false ∧ OnlyRegAndFlags d s t

/-- MOV: Rd takes the Word of Rs, C is cleared; nothing else changes (41_move.md). -/
def Obligations.MovCopiesRegister : Prop :=
  ∀ (d r : RegIndex) (s : State), ∃ t, exec (.mov d r) s = .next t ∧
    readReg t d = readReg s r ∧ FlagsFor t (readReg s r) False ∧ OnlyRegAndFlags d s t

/-- LOAD: Rd takes the cell at the address in Rs, 0 from out of bounds, C is cleared; nothing else changes
(42_load_store.md). -/
def Obligations.LoadReadsAddressedCell : Prop :=
  ∀ (d r : RegIndex) (s : State), ∃ t, exec (.load d r) s = .next t ∧
    (inBounds s (effectiveAddress s r) → readReg t d = s.mem.cell (readReg s r).toNat) ∧
    (¬ inBounds s (effectiveAddress s r) → readReg t d = 0) ∧
    FlagsFor t (readReg t d) False ∧ OnlyRegAndFlags d s t

/-- 42_load_store.md: STORE writes the Word of Rd at the address in Rs, or nothing out of bounds; every other Word of memory,
every register and every flag keeps its value. -/
def Obligations.StoreWritesAddressedCell : Prop :=
  ∀ (d r : RegIndex) (s : State), ∃ t, exec (.store d r) s = .next t ∧
    (inBounds s (effectiveAddress s r) → memRead t (effectiveAddress s r) = readReg s d) ∧
    (¬ inBounds s (effectiveAddress s r) → t = s) ∧
    (∀ a : Word, a ≠ effectiveAddress s r → memRead t a = memRead s a) ∧
    effectiveAddress s r = readReg s r ∧
    SameRegs s t ∧ t.flags = s.flags ∧ t.pc = s.pc ∧ t.halted = s.halted ∧ t.memorySize = s.memorySize

/-- ADD: Rd takes the sum modulo 2^16, C is set exactly when the exact sum exceeds 0xFFFF, the old C is not added; nothing
else changes (43_add_sub.md). -/
def Obligations.AddGivesSumAndCarryOut : Prop :=
  ∀ (d r : RegIndex) (s : State), ∃ t, exec (.add d r) s = .next t ∧
    (readReg t d).toNat = ((readReg s d).toNat + (readReg s r).toNat) % 65536 ∧
    FlagsFor t (readReg t d) (0xFFFF < (readReg s d).toNat + (readReg s r).toNat) ∧ OnlyRegAndFlags d s t

/-- SUB: Rd takes the difference modulo 2^16, C is set exactly when there is no borrow, Z exactly when the operands are equal;
nothing else changes (43_add_sub.md). -/
def Obligations.SubGivesDifferenceAndNoBorrow : Prop :=
  ∀ (d r : RegIndex) (s : State), ∃ t, exec (.sub d r) s = .next t ∧
    (readReg t d).toNat = ((readReg s d).toNat + 65536 - (readReg s r).toNat) % 65536 ∧
    FlagsFor t (readReg t d) ((readReg s r).toNat ≤ (readReg s d).toNat) ∧
    (t.flags.z = true ↔ readReg s d = readReg s r) ∧ OnlyRegAndFlags d s t

/-- AND, OR, XOR and NOT: each result bit is the operation on the operands' bits (NOT reads Rs only), C is cleared; nothing
else changes (44_logic.md). -/
def Obligations.LogicWorksBitByBit : Prop :=
  ∀ (d r : RegIndex) (s : State),
    (∃ t, exec (.and d r) s = .next t ∧ OnlyRegAndFlags d s t ∧ FlagsFor t (readReg t d) False ∧
      ∀ k < 16, (readReg t d).getLsbD k = ((readReg s d).getLsbD k && (readReg s r).getLsbD k)) ∧
    (∃ t, exec (.or d r) s = .next t ∧ OnlyRegAndFlags d s t ∧ FlagsFor t (readReg t d) False ∧
      ∀ k < 16, (readReg t d).getLsbD k = ((readReg s d).getLsbD k || (readReg s r).getLsbD k)) ∧
    (∃ t, exec (.xor d r) s = .next t ∧ OnlyRegAndFlags d s t ∧ FlagsFor t (readReg t d) False ∧
      ∀ k < 16, (readReg t d).getLsbD k = ((readReg s d).getLsbD k ^^ (readReg s r).getLsbD k)) ∧
    (∃ t, exec (.not d r) s = .next t ∧ OnlyRegAndFlags d s t ∧ FlagsFor t (readReg t d) False ∧
      ∀ k < 16, (readReg t d).getLsbD k = !(readReg s r).getLsbD k)

/-- SHL: Rd takes twice its Word modulo 2^16, C is the bit shifted out; nothing else changes (45_shift.md). -/
def Obligations.ShlShiftsLeftByOne : Prop :=
  ∀ (d : RegIndex) (s : State), ∃ t, exec (.shl d) s = .next t ∧
    (readReg t d).toNat = (2 * (readReg s d).toNat) % 65536 ∧
    FlagsFor t (readReg t d) ((readReg s d).getLsbD 15 = true) ∧ OnlyRegAndFlags d s t

/-- SHR: Rd takes half its Word, a zero entering bit 15 so that N is 0, C is the bit shifted out; nothing else changes
(45_shift.md). -/
def Obligations.ShrShiftsRightByOne : Prop :=
  ∀ (d : RegIndex) (s : State), ∃ t, exec (.shr d) s = .next t ∧
    (readReg t d).toNat = (readReg s d).toNat / 2 ∧ t.flags.n = false ∧
    FlagsFor t (readReg t d) ((readReg s d).getLsbD 0 = true) ∧ OnlyRegAndFlags d s t

/-- JMP: pc takes all 16 bits of Rs, in bounds or not; no register, flag or memory cell changes (46_jump.md). -/
def Obligations.JmpLoadsPcFromRegister : Prop :=
  ∀ (r : RegIndex) (s : State), ∃ t, exec (.jmp r) s = .next t ∧ t.pc = readReg s r ∧
    SameRegs s t ∧ SameMemory s t ∧ t.flags = s.flags ∧ t.halted = s.halted

/-- JZ: pc takes Rs when Z is set and keeps the advanced value when it is not; no register, flag or memory cell changes
(46_jump.md). -/
def Obligations.JzJumpsExactlyWhenZeroIsSet : Prop :=
  ∀ (r : RegIndex) (s : State), ∃ t, exec (.jz r) s = .next t ∧
    (s.flags.z = true → t.pc = readReg s r) ∧ (s.flags.z = false → t.pc = s.pc) ∧
    SameRegs s t ∧ SameMemory s t ∧ t.flags = s.flags ∧ t.halted = s.halted

/-- HALT sets halted and NOP does nothing: registers, flags, the advanced pc and memory keep their values
(40_step_halt_nop.md sections 3 and 4). -/
def Obligations.HaltSetsHaltedNopDoesNothing : Prop :=
  ∀ s : State,
    (∃ t, exec .halt s = .next t ∧ t.halted = true ∧ SameRegs s t ∧ SameMemory s t ∧ t.flags = s.flags ∧ t.pc = s.pc) ∧
    exec .nop s = .next s

/-! ### Rules about the whole machine -/

/-- 10_state.md R23: halted is initially false, set true only by HALT, and once true no further stepping occurs; only reset()
clears it. -/
def Obligations.OnlyHaltHaltsOnlyResetResumes : Prop :=
  (∀ n, (State.constructed n).halted = false) ∧
  (∀ s : State, ∃ t, exec .halt s = .next t ∧ t.halted = true) ∧
  (∀ (i : Instr) (s t : State), exec i s = .next t → i ≠ .halt → t.halted = s.halted) ∧
  (∀ s : State, s.halted = true → step s = .next s) ∧
  (∀ s : State, (hostReset s).halted = false)

/-- An instruction changes no register but its destination, and those without one change none, by the access table of
10_state.md section 1. -/
def Obligations.OnlyTheDestinationRegisterChanges : Prop :=
  ∀ (i : Instr) (s t : State), exec i s = .next t →
    match i with
    | .halt | .store _ _ | .jmp _ | .jz _ | .nop => SameRegs s t
    | .movi d _ | .mov d _ | .load d _ | .add d _ | .sub d _ | .and d _ | .or d _ | .xor d _ | .not d _
    | .shl d | .shr d => SameRegsBut d s t

/-- Which flags each instruction writes, by the table of 10_state.md section 3: producers overwrite all three, the others
leave all three (Z and N: decision D5, log 5; the cleared C: decision D6, log 6). -/
def Obligations.FlagsAreWrittenByProducersOnly : Prop :=
  ∀ (i : Instr) (s t : State), exec i s = .next t →
    match i with
    | .halt | .store _ _ | .jmp _ | .jz _ | .nop => t.flags = s.flags
    | .movi d _ => FlagsFor t (readReg t d) False ∧ t.flags.n = false
    | .mov d _ | .load d _ | .and d _ | .or d _ | .xor d _ | .not d _ => FlagsFor t (readReg t d) False
    | .add d r => FlagsFor t (readReg t d) (0xFFFF < (readReg s d).toNat + (readReg s r).toNat)
    | .sub d r => FlagsFor t (readReg t d) ((readReg s r).toNat ≤ (readReg s d).toNat)
    | .shl d => FlagsFor t (readReg t d) ((readReg s d).getLsbD 15 = true)
    | .shr d => FlagsFor t (readReg t d) ((readReg s d).getLsbD 0 = true) ∧ t.flags.n = false

/-- Only STORE writes memory, and it writes no Word but the one its register addresses (10_state.md R28's reading of conflict
C9, 42_load_store.md). -/
def Obligations.OnlyStoreWritesMemory : Prop :=
  ∀ (i : Instr) (s t : State), exec i s = .next t → t.memorySize = s.memorySize ∧ ∀ a : Word,
    match i with
    | .store _ r => a ≠ effectiveAddress s r → memRead t a = memRead s a
    | _ => memRead t a = memRead s a

/-- What writes pc in a step: the advance, JMP, and a taken JZ; a halted step does not (10_state.md section 2; the wrap of the
advance is decision D7, log 7). -/
def Obligations.PcIsAdvancedOrJumpTarget : Prop :=
  ∀ s t : State, step s = .next t →
    if s.halted then t.pc = s.pc
    else
      match decode (memRead s s.pc) with
      | .jmp r => t.pc = readReg s r
      | .jz r => t.pc = if s.flags.z then readReg s r else s.pc + 1
      | _ => t.pc = s.pc + 1

/-- Nothing reads C or N: two machines that differ in those two flags alone run alike, for any number of steps
(10_state.md section 3, last paragraph). -/
def Obligations.CarryAndNegativeSteerNothing : Prop :=
  ∀ s t : State, t.regs = s.regs → t.pc = s.pc → t.flags.z = s.flags.z → t.halted = s.halted → t.mem = s.mem →
    t.memorySize = s.memorySize → ∀ k, ∃ s' t' : State, Host.Core.run core k s = .next s' ∧ Host.Core.run core k t = .next t' ∧
      t'.regs = s'.regs ∧ t'.pc = s'.pc ∧ t'.flags.z = s'.flags.z ∧ t'.halted = s'.halted ∧ t'.mem = s'.mem ∧
      t'.memorySize = s'.memorySize

/-- The only reader of Z is JZ: any other instruction does the same whatever the flags were, and a producer leaves the same
flags too (10_state.md section 3). That MOVI, MOV, LOAD, AND, OR, XOR and NOT leave the same C whatever it was is the cleared
C of decision D6 and conflict C3 (log 6). -/
def Obligations.ZeroFlagIsReadByJzOnly : Prop :=
  ∀ (i : Instr) (s : State) (f : Flags), ∃ t, exec i s = .next t ∧
    match i with
    | .halt | .store _ _ | .jmp _ | .nop =>
      t.flags = s.flags ∧ exec i { s with flags := f } = .next { t with flags := f }
    | .jz _ => f.z = s.flags.z → exec i { s with flags := f } = .next { t with flags := f }
    | .movi _ _ | .mov _ _ | .load _ _ | .add _ _ | .sub _ _ | .and _ _ | .or _ _ | .xor _ _ | .not _ _ | .shl _
    | .shr _ => exec i { s with flags := f } = .next t

/-- SHL Rd has the result and the flags of ADD Rd, Rd (45_shift.md, corner cases of SHL). -/
def Obligations.ShlEqualsAddToItself : Prop := ∀ (d : RegIndex) (s : State), exec (.shl d) s = exec (.add d d) s

/-- C after SUB is the carry out of a + (~b) + 1 (43_add_sub.md, Flags of SUB). -/
def Obligations.SubCarryIsCarryOutOfComplementSum : Prop :=
  ∀ (d r : RegIndex) (s t : State), exec (.sub d r) s = .next t →
    (t.flags.c = true ↔ 0x10000 ≤ (readReg s d).toNat + (~~~ readReg s r).toNat + 1) ∧
    (readReg t d).toNat = ((readReg s d).toNat + (~~~ readReg s r).toNat + 1) % 0x10000

/-- A STORE to the next instruction's address is seen by the next fetch: the stored Word is what runs (20_memory.md,
instruction-fetch coherence, marked derived there; advance at 0xFFFF: decision D7, log 7). -/
def Obligations.StoreIsSeenByNextFetch : Prop :=
  ∀ (s : State) (d r : RegIndex), s.halted = false → decode (memRead s s.pc) = .store d r →
    readReg s r = s.pc + 1 → inBounds s (s.pc + 1) →
    ∃ t, step s = .next t ∧ t.pc = s.pc + 1 ∧ memRead t t.pc = readReg s d ∧
      step t = exec (decode (readReg s d)) (setPc t (s.pc + 2))

/-- A LOAD returns the Word of the most recent STORE to that in-bounds address, and 0 out of bounds (20_memory.md section 4). -/
def Obligations.LoadReturnsTheStoredWord : Prop :=
  ∀ (s : State) (d r e : RegIndex), ∃ t u, exec (.store d r) s = .next t ∧ exec (.load e r) t = .next u ∧
    (inBounds s (readReg s r) → readReg u e = readReg s d) ∧ (¬ inBounds s (readReg s r) → readReg u e = 0)

/-- A fetch at or above MEMORY_SIZE executes HALT, since it reads the zero word (60_exceptions.md section 1; that the zero
word is HALT is decision D2, log 3; the wrap is D7, log 7). -/
def Obligations.FetchBeyondMemoryHalts : Prop :=
  ∀ s : State, s.halted = false → ¬ inBounds s s.pc → step s = .next { s with pc := s.pc + 1, halted := true }

/-- A fetch from a cell that holds the zero word halts too: a program that runs into zeroed memory stops there
(70_reset_and_hazards.md, running off the end; decision D2, log 3; the wrap is D7, log 7). -/
def Obligations.ZeroWordHalts : Prop :=
  ∀ s : State, s.halted = false → memRead s s.pc = 0 → step s = .next { s with pc := s.pc + 1, halted := true }

/-- The two words of an expanded `JZ target` jump exactly when the target is 0, whatever Z was before them
(70_reset_and_hazards.md, toolchain hazards, marked derived there; conflict C5; decisions D1, D2, D5, D7, D9, log 2, 3, 5, 7,
9). -/
def Obligations.ExpandedJzJumpsExactlyToZero : Prop :=
  ∀ (s : State) (target : Imm9), s.halted = false → memRead s s.pc = encodeImmediate 7 target.toNat →
    memRead s (s.pc + 1) = 0xE1C0 →
    ∃ t : State, Host.Core.run core 2 s = .next t ∧ readReg t 7 = target.setWidth 16 ∧
      t.pc = if target = 0 then 0 else s.pc + 2

/-- `run()` counts the steps entered not halted, the HALT step among them, and ends in the first halted state; it answers
within a bound exactly when a halted state is reached within it (40_step_halt_nop.md, run(); the answer 0 on a halted
machine is decision D12, log 13). -/
def Obligations.RunCountsStepsToTheFirstHaltedState : Prop :=
  ∀ (k : Nat) (s : State),
    (∀ (t : State) (n : Nat), runWithin k s = some (t, n) →
      n ≤ k ∧ t.halted = true ∧ Host.Core.run core n s = .next t ∧
      ∀ j, j < n → ∃ u : State, Host.Core.run core j s = .next u ∧ u.halted = false) ∧
    (∀ (j : Nat) (u : State), j ≤ k → Host.Core.run core j s = .next u → u.halted = true → ∃ n, runWithin k s = some (u, n))

/-- The packed flag Word has Z in bit 0, C in bit 1, N in bit 2 and zeros elsewhere (10_state.md section 3, decision D4,
log 4). -/
def Obligations.FlagWordPacksZCN : Prop :=
  ∀ (s : State) (k : Nat), (hostFlags s).getLsbD k =
    if k = 0 then s.flags.z else if k = 1 then s.flags.c else if k = 2 then s.flags.n else false

/-! ### Loading a program -/

/-- A Word placed for the next step is what that step runs, from any state, and the placing changes no register, flag or pc
and no other cell. It is the model's own way to load one instruction (log 11), and it also clears halted and makes the memory
large enough where pc is out of bounds: of halted this says nothing, and of the memory size that it is kept where pc is in
bounds. -/
def Obligations.PlacedWordIsRunNext : Prop :=
  ∀ (s : State) (w : Word),
    step (s.withFetchWord 16 w.toNat) = exec (decode w) (advancePc (s.withFetchWord 16 w.toNat)) ∧
    SameRegs s (s.withFetchWord 16 w.toNat) ∧ (s.withFetchWord 16 w.toNat).flags = s.flags ∧
    (s.withFetchWord 16 w.toNat).pc = s.pc ∧
    (∀ a, a ≠ s.pc.toNat → (s.withFetchWord 16 w.toNat).mem.cell a = s.mem.cell a) ∧
    (inBounds s s.pc → (s.withFetchWord 16 w.toNat).memorySize = s.memorySize)

/-- What a jump with a label or literal target emits: MOVI R7, target and the jump through R7 where the target is at most 511,
and an error above (30_encoding.md section 8, decisions D1, D2, log 2, 3). The zeros in the fields the jump does not use are
decision D9 (log 9); which tokens are registers is D17 and D22 (log 19, 20). -/
def Obligations.JumpTargetExpandsThroughRegisterSeven : Prop :=
  ∀ (cfg : AsmConfig) (labels : LabelTable) (t : Text) (target : Nat), registerNamed t = none →
    operandValue cfg labels t = some target →
    (target ≤ 511 →
      instructionWords cfg labels .jmp [t] = .ok [0x1E00 ||| BitVec.ofNat 16 target, 0xD1C0] ∧
      instructionWords cfg labels .jz [t] = .ok [0x1E00 ||| BitVec.ofNat 16 target, 0xE1C0]) ∧
    (511 < target →
      instructionWords cfg labels .jmp [t] = .error (.error .targetTooLarge) ∧
      instructionWords cfg labels .jz [t] = .error (.error .targetTooLarge))

/-- Pass 1 counts every instruction as one word; where pass 2 emits a jump with a label or literal target it moves the cursor
by two, and by one for every other statement of an instruction (30_encoding.md section 8, pass mismatch, conflict C4). That
pass 1 goes on to c + 1 at c = 0xFFFF too, its counter not wrapping, is the model's choice (log 25); which tokens are registers
is D17 and D22 (log 19, 20). -/
def Obligations.ExpandedJumpsDriftTheLabels : Prop :=
  ∀ (cfg : AsmConfig) (labels : LabelTable) (size : Nat) (op : Opcode) (operands : List Text) (c c' : Nat)
    (m m' : Memory),
    passTwoLine cfg labels size (c, m) (.instruction op operands) = .ok (c', m') →
    passOneLine cfg (c, labels) (.instruction op operands) = .ok (c + 1, labels) ∧
    c' = (if (op = .jmp ∨ op = .jz) ∧ operands.any (fun t => (registerNamed t).isNone) = true then c + 2 else c + 1) ∧
    c' ≤ size

/-- Emission fails with "Program too large" exactly when the cursor has reached the memory size; otherwise the Word is in its
cell and the cursor is advanced (30_encoding.md section 8, conflict C4). -/
def Obligations.EmissionFailsExactlyAtMemorySize : Prop :=
  ∀ (size c : Nat) (m : Memory) (w : Word),
    (size ≤ c → emitWord size (c, m) w = .error (.error .programTooLarge)) ∧
    (c < size → ∃ m', emitWord size (c, m) w = .ok (c + 1, m') ∧ m'.cell c = w ∧ ∀ a, a ≠ c → m'.cell a = m.cell a)
end

