-- ==== Sys2Proof/Laws/State.lean ====
section
/-! SUPPORT. One lemma per field per update of the state, each true by unfolding, so that no later proof unfolds a record
update. -/

namespace Sys2Proof.Machine

section Fields
variable (s : State) (d : RegIndex) (v a : Word) (c : Bool)

@[simp] theorem writeReg_pc : (writeReg s d v).pc = s.pc := rfl
@[simp] theorem writeReg_flags : (writeReg s d v).flags = s.flags := rfl
@[simp] theorem writeReg_halted : (writeReg s d v).halted = s.halted := rfl
@[simp] theorem writeReg_mem : (writeReg s d v).mem = s.mem := rfl
@[simp] theorem writeReg_memorySize : (writeReg s d v).memorySize = s.memorySize := rfl

@[simp] theorem setFlags_regs : (setFlags s v c).regs = s.regs := rfl
@[simp] theorem setFlags_pc : (setFlags s v c).pc = s.pc := rfl
@[simp] theorem setFlags_flags : (setFlags s v c).flags = flagsOf v c := rfl
@[simp] theorem setFlags_halted : (setFlags s v c).halted = s.halted := rfl
@[simp] theorem setFlags_mem : (setFlags s v c).mem = s.mem := rfl
@[simp] theorem setFlags_memorySize : (setFlags s v c).memorySize = s.memorySize := rfl

@[simp] theorem writeResult_pc : (writeResult s d v c).pc = s.pc := rfl
@[simp] theorem writeResult_flags : (writeResult s d v c).flags = flagsOf v c := rfl
@[simp] theorem writeResult_halted : (writeResult s d v c).halted = s.halted := rfl
@[simp] theorem writeResult_mem : (writeResult s d v c).mem = s.mem := rfl
@[simp] theorem writeResult_memorySize : (writeResult s d v c).memorySize = s.memorySize := rfl

@[simp] theorem setPc_regs : (setPc s v).regs = s.regs := rfl
@[simp] theorem setPc_pc : (setPc s v).pc = v := rfl
@[simp] theorem setPc_flags : (setPc s v).flags = s.flags := rfl
@[simp] theorem setPc_halted : (setPc s v).halted = s.halted := rfl
@[simp] theorem setPc_mem : (setPc s v).mem = s.mem := rfl
@[simp] theorem setPc_memorySize : (setPc s v).memorySize = s.memorySize := rfl

@[simp] theorem advancePc_regs : (advancePc s).regs = s.regs := rfl
@[simp] theorem advancePc_pc : (advancePc s).pc = s.pc + 1 := rfl
@[simp] theorem advancePc_flags : (advancePc s).flags = s.flags := rfl
@[simp] theorem advancePc_halted : (advancePc s).halted = s.halted := rfl
@[simp] theorem advancePc_mem : (advancePc s).mem = s.mem := rfl
@[simp] theorem advancePc_memorySize : (advancePc s).memorySize = s.memorySize := rfl

@[simp] theorem setHalted_regs : (setHalted s).regs = s.regs := rfl
@[simp] theorem setHalted_pc : (setHalted s).pc = s.pc := rfl
@[simp] theorem setHalted_flags : (setHalted s).flags = s.flags := rfl
@[simp] theorem setHalted_halted : (setHalted s).halted = true := rfl
@[simp] theorem setHalted_mem : (setHalted s).mem = s.mem := rfl
@[simp] theorem setHalted_memorySize : (setHalted s).memorySize = s.memorySize := rfl

@[simp] theorem memWrite_regs : (memWrite s a v).regs = s.regs := rfl
@[simp] theorem memWrite_pc : (memWrite s a v).pc = s.pc := rfl
@[simp] theorem memWrite_flags : (memWrite s a v).flags = s.flags := rfl
@[simp] theorem memWrite_halted : (memWrite s a v).halted = s.halted := rfl
@[simp] theorem memWrite_mem : (memWrite s a v).mem = s.mem.busWrite s.memorySize a.toNat v := rfl
@[simp] theorem memWrite_memorySize : (memWrite s a v).memorySize = s.memorySize := rfl

@[simp] theorem hostReset_regs : (hostReset s).regs = Vector.replicate 8 0 := rfl
@[simp] theorem hostReset_pc : (hostReset s).pc = 0 := rfl
@[simp] theorem hostReset_flags : (hostReset s).flags = ⟨false, false, false⟩ := rfl
@[simp] theorem hostReset_halted : (hostReset s).halted = false := rfl
@[simp] theorem hostReset_mem : (hostReset s).mem = s.mem := rfl
@[simp] theorem hostReset_memorySize : (hostReset s).memorySize = s.memorySize := rfl

@[simp] theorem placeAtPc_regs : (placeAtPc s v).regs = s.regs := rfl
@[simp] theorem placeAtPc_pc : (placeAtPc s v).pc = s.pc := rfl
@[simp] theorem placeAtPc_flags : (placeAtPc s v).flags = s.flags := rfl
@[simp] theorem placeAtPc_halted : (placeAtPc s v).halted = false := rfl
@[simp] theorem placeAtPc_mem : (placeAtPc s v).mem = s.mem.put s.pc.toNat v := rfl
@[simp] theorem placeAtPc_memorySize :
    (placeAtPc s v).memorySize = max s.memorySize (s.pc.toNat + 1) := rfl

end Fields

/-! ### The two reads: which fields they depend on -/

/-- A register read depends on the register file alone. -/
theorem readReg_congr {s t : State} (h : t.regs = s.regs) (q : RegIndex) : readReg t q = readReg s q := by
  simp [readReg, h]

/-- A Bus read depends on the memory array and its size alone. -/
theorem memRead_congr {s t : State} (hm : t.mem = s.mem) (hn : t.memorySize = s.memorySize) (a : Word) :
    memRead t a = memRead s a := by
  simp [memRead, hm, hn]

end Sys2Proof.Machine
end

