-- ==== Sys2Proof/Laws/Memory.lean ====
section
/-! SUPPORT. The memory array: what a cell reads after each operation, and that every operation keeps the canonical form. -/

namespace Sys2Proof.Machine

@[simp] theorem Memory.wf_nil : Memory.wf [] = true := rfl

theorem Memory.wf_cons {a : Nat} {v : Word} {m : Memory} :
    Memory.wf ((a, v) :: m) = true ↔ v ≠ 0 ∧ (∀ p ∈ m, a < p.1) ∧ Memory.wf m = true := by
  simp [Memory.wf, and_assoc]

theorem Memory.within_iff {size : Nat} {m : Memory} :
    Memory.within size m = true ↔ ∀ p ∈ m, p.1 < size := by
  simp [Memory.within]

/-! ### What a cell reads -/

theorem Memory.cell_clear (m : Memory) (a b : Nat) :
    (m.clear a).cell b = if b = a then 0 else m.cell b := by
  induction m with
  | nil => simp [Memory.clear, Memory.cell]
  | cons p m ih =>
    obtain ⟨c, w⟩ := p
    by_cases hca : c = a
    · have hdrop : Memory.clear ((c, w) :: m) a = Memory.clear m a := by simp [Memory.clear, hca]
      rw [hdrop, ih]
      by_cases hba : b = a
      · simp [hba]
      · have hcb : ¬ c = b := by omega
        simp [Memory.cell, hba, hcb]
    · have hkeep : Memory.clear ((c, w) :: m) a = (c, w) :: Memory.clear m a := by simp [Memory.clear, hca]
      rw [hkeep]
      by_cases hcb : c = b
      · have hba : ¬ b = a := by omega
        simp [Memory.cell, hcb, hba]
      · simp [Memory.cell, hcb, ih]

theorem Memory.cell_place (m : Memory) (a b : Nat) (v : Word) (h : ∀ p ∈ m, p.1 ≠ a) :
    (m.place a v).cell b = if b = a then v else m.cell b := by
  induction m with
  | nil => simp [Memory.place, Memory.cell, @eq_comm Nat b a]
  | cons p m ih =>
    obtain ⟨c, w⟩ := p
    have hca : c ≠ a := h (c, w) (by simp)
    have ih' := ih (fun p hp => h p (by simp [hp]))
    by_cases hac : a < c
    · by_cases hba : b = a
      · simp [Memory.place, hac, Memory.cell, hba]
      · have hab : ¬ a = b := by omega
        simp [Memory.place, hac, Memory.cell, hba, hab]
    · have hnext : Memory.place ((c, w) :: m) a v = (c, w) :: Memory.place m a v := by simp [Memory.place, hac]
      rw [hnext]
      by_cases hcb : c = b
      · have hba : ¬ b = a := by omega
        simp [Memory.cell, hcb, hba]
      · simp [Memory.cell, hcb, ih']

theorem Memory.clear_ne (m : Memory) (a : Nat) : ∀ p ∈ m.clear a, p.1 ≠ a := by
  simp [Memory.clear]

/-- The Word a put leaves in each cell, in any memory. -/
@[simp] theorem Memory.cell_put (m : Memory) (a b : Nat) (v : Word) :
    (m.put a v).cell b = if b = a then v else m.cell b := by
  unfold Memory.put
  split
  · next hv => rw [cell_clear, hv]
  · rw [cell_place _ _ _ _ (clear_ne m a), cell_clear]
    split <;> rfl

/-! ### The canonical form is kept -/

theorem Memory.wf_clear {m : Memory} (a : Nat) (h : m.wf = true) : (m.clear a).wf = true := by
  induction m with
  | nil => rfl
  | cons p m ih =>
    obtain ⟨c, w⟩ := p
    obtain ⟨hw, hlt, hm⟩ := wf_cons.1 h
    by_cases hca : c = a
    · have hdrop : Memory.clear ((c, w) :: m) a = Memory.clear m a := by simp [Memory.clear, hca]
      rw [hdrop]; exact ih hm
    · have hkeep : Memory.clear ((c, w) :: m) a = (c, w) :: Memory.clear m a := by simp [Memory.clear, hca]
      rw [hkeep]
      exact wf_cons.2 ⟨hw, fun p hp => hlt p (List.mem_filter.1 hp).1, ih hm⟩

theorem Memory.mem_place {m : Memory} {a : Nat} {v : Word} {p : Nat × Word} (h : p ∈ m.place a v) :
    p = (a, v) ∨ p ∈ m := by
  induction m with
  | nil => simpa [Memory.place] using h
  | cons q m ih =>
    obtain ⟨c, w⟩ := q
    by_cases hac : a < c
    · simpa [Memory.place, hac] using h
    · simp only [Memory.place, hac, if_false, List.mem_cons] at h
      rcases h with h | h
      · simp [h]
      · rcases ih h with h | h <;> simp [h]

theorem Memory.wf_place {m : Memory} {a : Nat} {v : Word} (h : m.wf = true) (hv : v ≠ 0) (ha : ∀ p ∈ m, p.1 ≠ a) :
    (m.place a v).wf = true := by
  induction m with
  | nil => exact wf_cons.2 ⟨hv, by simp, rfl⟩
  | cons p m ih =>
    obtain ⟨c, w⟩ := p
    obtain ⟨hw, hlt, hm⟩ := wf_cons.1 h
    have hca : c ≠ a := ha (c, w) (by simp)
    by_cases hac : a < c
    · have hhead : Memory.place ((c, w) :: m) a v = (a, v) :: (c, w) :: m := by simp [Memory.place, hac]
      rw [hhead]
      refine wf_cons.2 ⟨hv, fun p hp => ?_, h⟩
      rcases List.mem_cons.1 hp with hp | hp
      · simpa [hp] using hac
      · exact lt_trans hac (hlt p hp)
    · have hnext : Memory.place ((c, w) :: m) a v = (c, w) :: Memory.place m a v := by simp [Memory.place, hac]
      rw [hnext]
      refine wf_cons.2 ⟨hw, fun p hp => ?_, ih hm (fun p hp => ha p (by simp [hp]))⟩
      rcases mem_place hp with hp | hp
      · simp only [hp]; omega
      · exact hlt p hp

/-- A put keeps the canonical form. -/
theorem Memory.wf_put {m : Memory} (a : Nat) (v : Word) (h : m.wf = true) : (m.put a v).wf = true := by
  unfold Memory.put
  split
  · exact wf_clear a h
  · next hv => exact wf_place (wf_clear a h) hv (clear_ne m a)

/-- A put in bounds lists no cell out of bounds. -/
theorem Memory.within_put {m : Memory} {size a : Nat} (v : Word) (h : m.within size = true) (ha : a < size) :
    (m.put a v).within size = true := by
  rw [within_iff] at h ⊢
  intro p hp
  unfold Memory.put at hp
  split at hp
  · exact h p (List.mem_filter.1 hp).1
  · rcases mem_place hp with hp | hp
    · simpa [hp] using ha
    · exact h p (List.mem_filter.1 hp).1

/-- A Bus write keeps the canonical form. -/
theorem Memory.wf_busWrite {m : Memory} (size a : Nat) (v : Word) (h : m.wf = true) :
    (m.busWrite size a v).wf = true := by
  unfold Memory.busWrite
  split
  · exact wf_put a v h
  · exact h

/-- A Bus write lists no cell out of bounds. -/
theorem Memory.within_busWrite {m : Memory} {size : Nat} (a : Nat) (v : Word) (h : m.within size = true) :
    (m.busWrite size a v).within size = true := by
  unfold Memory.busWrite
  split
  · next ha => exact within_put v h ha
  · exact h

/-- A larger memory has room for every cell a smaller one lists. -/
theorem Memory.within_mono {m : Memory} {size size' : Nat} (h : m.within size = true) (hle : size ≤ size') :
    m.within size' = true := by
  rw [within_iff] at h ⊢
  exact fun p hp => lt_of_lt_of_le (h p hp) hle

/-- The engine's Bus write keeps the canonical form. -/
theorem memWrite_wf (s : State) (a v : Word) (h : s.mem.wf = true) : (memWrite s a v).mem.wf = true :=
  Memory.wf_busWrite _ _ _ h

/-- The engine's Bus write lists no cell out of bounds. -/
theorem memWrite_within (s : State) (a v : Word) (h : s.mem.within s.memorySize = true) :
    (memWrite s a v).mem.within (memWrite s a v).memorySize = true :=
  Memory.within_busWrite _ _ h

/-- The memory after reset is canonical. -/
theorem reset_mem_wf : State.reset.mem.wf = true := rfl

end Sys2Proof.Machine
end

