-- ==== Sys2Proof/Laws/Exec.lean ====
section
/-! SUPPORT. What each shared operation and each meaning can do, said once. Proofs about `exec` cite `exec_eq_effect` and the
lemmas below instead of unfolding the meanings. -/

namespace Sys2Proof.Machine

/-- Reading any register after a register write. -/
@[simp] theorem readReg_writeReg (s : State) (d q : RegIndex) (v : Word) :
    readReg (writeReg s d v) q = if q = d then v else readReg s q := by
  simp only [readReg, writeReg, Fin.getElem_fin, Vector.getElem_set, Fin.ext_iff, eq_comm]

/-- Reading any register after the write-back of a flag-producing instruction. -/
@[simp] theorem readReg_writeResult (s : State) (d q : RegIndex) (v : Word) (c : Bool) :
    readReg (writeResult s d v c) q = if q = d then v else readReg s q :=
  readReg_writeReg s d q v

/-- Reading a register is not disturbed by a pc update. -/
@[simp] theorem readReg_setPc (s : State) (v : Word) (q : RegIndex) : readReg (setPc s v) q = readReg s q := rfl

@[simp] theorem readReg_advancePc (s : State) (q : RegIndex) : readReg (advancePc s) q = readReg s q := rfl

@[simp] theorem readReg_memWrite (s : State) (a v : Word) (q : RegIndex) :
    readReg (memWrite s a v) q = readReg s q := rfl

@[simp] theorem readReg_setHalted (s : State) (q : RegIndex) : readReg (setHalted s) q = readReg s q := rfl

/-- Every Bus read is the same after an update that leaves memory alone. -/
@[simp] theorem memRead_writeResult (s : State) (d : RegIndex) (v a : Word) (c : Bool) :
    memRead (writeResult s d v c) a = memRead s a := rfl

@[simp] theorem memRead_setPc (s : State) (v a : Word) : memRead (setPc s v) a = memRead s a := rfl

@[simp] theorem memRead_advancePc (s : State) (a : Word) : memRead (advancePc s) a = memRead s a := rfl

@[simp] theorem memRead_setHalted (s : State) (a : Word) : memRead (setHalted s) a = memRead s a := rfl

/-- The state an instruction's effect leaves, one line per meaning. -/
def effect (i : Instr) (s : State) : State :=
  match i with
  | .halt => setHalted s
  | .movi rd imm => writeResult s rd (immediateOperand imm) noCarry
  | .mov rd rs => writeResult s rd (registerOperand s rs) noCarry
  | .load rd rs => writeResult s rd (memoryOperand s rs) noCarry
  | .store rd rs => memWrite s (effectiveAddress s rs) (registerOperand s rd)
  | .add rd rs =>
    writeResult s rd (registerOperand s rd + registerOperand s rs) (addCarry (registerOperand s rd) (registerOperand s rs))
  | .sub rd rs =>
    writeResult s rd (registerOperand s rd - registerOperand s rs) (subCarry (registerOperand s rd) (registerOperand s rs))
  | .and rd rs => writeResult s rd (registerOperand s rd &&& registerOperand s rs) noCarry
  | .or rd rs => writeResult s rd (registerOperand s rd ||| registerOperand s rs) noCarry
  | .xor rd rs => writeResult s rd (registerOperand s rd ^^^ registerOperand s rs) noCarry
  | .not rd rs => writeResult s rd (~~~registerOperand s rs) noCarry
  | .shl rd => writeResult s rd (registerOperand s rd <<< 1) (shlCarry (registerOperand s rd))
  | .shr rd => writeResult s rd (registerOperand s rd >>> 1) (shrCarry (registerOperand s rd))
  | .jmp rs => setPc s (jumpTarget s rs)
  | .jz rs => if s.flags.z then setPc s (jumpTarget s rs) else s
  | .nop => s

/-- The dispatch answers exactly the effect. -/
theorem exec_eq_effect (i : Instr) (s : State) : exec i s = .next (effect i s) := by
  cases i <;> rfl

/-- An instruction that answers next `t` left `t` its effect. -/
theorem exec_next_iff {i : Instr} {s t : State} : exec i s = .next t ↔ t = effect i s := by
  rw [exec_eq_effect, Host.Outcome.next.injEq, eq_comm]

/-- A step of a machine that is not halted, as an effect. -/
theorem step_eq_effect {s : State} (h : s.halted = false) :
    step s = .next (effect (decode (fetch s)) (advancePc s)) := by
  simp [step, h, exec_eq_effect]

/-- A step of a halted machine. -/
theorem step_halted {s : State} (h : s.halted = true) : step s = .next s := by
  simp [step, h]

end Sys2Proof.Machine
end

