-- ==== Sys2Proof/Laws/PerInstr.lean ====
section
/-! SUPPORT. The family FieldsFit: every instruction, as syntax, is well-formed, constructor by constructor. -/

namespace Sys2Proof.Laws.FieldsFit

/-- The operand numbers of the instruction are in the ranges its fields hold. -/
def Statement (i : Instr) : Prop := i.wellFormed = true

theorem register_fits (r : RegIndex) : registerFits r.val = true := by
  simp only [registerFits, decide_eq_true_eq]
  exact r.isLt

theorem imm9_fits (imm : Imm9) : imm9Fits imm.toNat = true := by
  simp only [imm9Fits, decide_eq_true_eq]
  exact imm.isLt

theorem register_pair_fits (rd rs : RegIndex) : (registerFits rd.val && registerFits rs.val) = true := by
  simp only [register_fits, Bool.and_self]

theorem halt : Statement .halt := rfl
theorem movi (rd : RegIndex) (imm : Imm9) : Statement (.movi rd imm) := by
  simp only [Statement, Instr.wellFormed, register_fits, imm9_fits, Bool.and_self]
theorem mov (rd rs : RegIndex) : Statement (.mov rd rs) := register_pair_fits rd rs
theorem load (rd rs : RegIndex) : Statement (.load rd rs) := register_pair_fits rd rs
theorem store (rd rs : RegIndex) : Statement (.store rd rs) := register_pair_fits rd rs
theorem add (rd rs : RegIndex) : Statement (.add rd rs) := register_pair_fits rd rs
theorem sub (rd rs : RegIndex) : Statement (.sub rd rs) := register_pair_fits rd rs
theorem and (rd rs : RegIndex) : Statement (.and rd rs) := register_pair_fits rd rs
theorem or (rd rs : RegIndex) : Statement (.or rd rs) := register_pair_fits rd rs
theorem xor (rd rs : RegIndex) : Statement (.xor rd rs) := register_pair_fits rd rs
theorem not (rd rs : RegIndex) : Statement (.not rd rs) := register_pair_fits rd rs
theorem shl (rd : RegIndex) : Statement (.shl rd) := register_fits rd
theorem shr (rd : RegIndex) : Statement (.shr rd) := register_fits rd
theorem jmp (rs : RegIndex) : Statement (.jmp rs) := register_fits rs
theorem jz (rs : RegIndex) : Statement (.jz rs) := register_fits rs
theorem nop : Statement .nop := rfl

end Sys2Proof.Laws.FieldsFit
end

