-- ==== Sys2Proof/Tests/Slice0.lean ====
section
/-! SUPPORT. The author's own tests. Expected results are from spec/95_test_vectors.md (the vector's id stands with each test)
or written out from the encoding tables; the witnesses show that the hypotheses of the statements can be met. -/

namespace Sys2Proof.Machine

/-! ### Helpers -/

/-- A machine with a memory of `size` Words, the Word `w` at `pc`, the registers and flags given, all else 0. -/
def testState (size : Nat) (pc w : Word) (regs : List (RegIndex × Word)) (flags : Flags) : State :=
  let s := { State.constructed size with pc := pc, flags := flags, mem := Memory.put [] pc.toNat w }
  regs.foldl (fun s p => writeReg s p.1 p.2) s

/-- A check of the state one step leaves. -/
def stepped (s : State) (ok : State → Bool) : Bool :=
  match step s with
  | .next t => ok t
  | .fault _ => false
  | .refused _ => false

/-- The usual shape of a vector: the register `r` ends as `v`, pc as 0x0011, the flags as given, and the machine runs on. -/
def vector (w : Word) (regs : List (RegIndex × Word)) (before : Flags) (r : RegIndex) (v : Word) (after : Flags) : Bool :=
  stepped (testState 65536 0x0010 w regs before) fun t =>
    readReg t r == v && t.flags == after && t.pc == 0x0011 && running t

/-! ### WellFormed: an ill-formed term for each check -/

theorem test_opcode_sixteen_refused : (CodecCall.registerPair 16 0 0).wellFormed = false := by decide
theorem test_rd_eight_refused : (CodecCall.registerPair 5 8 0).wellFormed = false := by decide
theorem test_rs_eight_refused : (CodecCall.registerPair 5 0 8).wellFormed = false := by decide
theorem test_movi_rd_eight_refused : (CodecCall.immediate 8 0).wellFormed = false := by decide
theorem test_imm9_512_refused : (CodecCall.immediate 0 512).wellFormed = false := by decide
theorem test_largest_arguments_accepted :
    (CodecCall.registerPair 15 7 7).wellFormed = true ∧ (CodecCall.immediate 7 511).wellFormed = true := by decide

/-! ### Decode: a word of every constructor, written bit by bit from rules R51, R52 and R62 -/

theorem test_decode_halt : decode 0b0000111111111111 = .halt := by decide
theorem test_decode_movi : decode 0b0001111100000101 = .movi 7 0b100000101 := by decide
theorem test_decode_mov : decode 0b0010011101111111 = .mov 3 5 := by decide
theorem test_decode_load : decode 0b0011100001000000 = .load 4 1 := by decide
theorem test_decode_store : decode 0b0100100011000000 = .store 4 3 := by decide
theorem test_decode_add : decode 0b0101000001000000 = .add 0 1 := by decide
theorem test_decode_sub : decode 0b0110001010000000 = .sub 1 2 := by decide
theorem test_decode_and : decode 0b0111010000000000 = .and 2 0 := by decide
theorem test_decode_or : decode 0b1000001000000000 = .or 1 0 := by decide
theorem test_decode_xor : decode 0b1001001010000000 = .xor 1 2 := by decide
theorem test_decode_not : decode 0b1010101111001101 = .not 5 7 := by decide
theorem test_decode_shl : decode 0b1011000111111111 = .shl 0 := by decide
theorem test_decode_shr : decode 0b1100101000000000 = .shr 5 := by decide
theorem test_decode_jmp : decode 0b1101111011111111 = .jmp 3 := by decide
theorem test_decode_jz : decode 0b1110000100000000 = .jz 4 := by decide
theorem test_decode_nop : decode 0b1111111111111111 = .nop := by decide

/-- Vectors K8, K9, K13, K14: the encode functions mask. -/
theorem test_encode_masks :
    encodeImmediate 9 0x3FF = 0x13FF ∧ encodeImmediate 2 0x200 = 0x1400 ∧
    encodeRegisterPair 5 9 8 = 0x5200 ∧ encodeRegisterPair 0x15 0 0 = 0x5000 := by decide

/-- Vectors K15, K16. -/
theorem test_opcode_for_mnemonic :
    opcodeForMnemonic "halt".toList = some 0 ∧ opcodeForMnemonic "Jz".toList = some 14 ∧
    opcodeForMnemonic "NOP".toList = some 15 ∧ opcodeForMnemonic "MUL".toList = none := by decide

/-- A table row's word, as the host numbers it. -/
theorem test_decode_table_word : decodeTableWord 16 0x5040 = some (.add 0 1) ∧ decodeTableWord 32 0x5040 = none := by decide

/-! ### One step of each instruction -/

/-- V1 -/
theorem test_halt_keeps_flags : stepped (testState 65536 0x0010 0x0000 [] ⟨true, true, true⟩) (fun t =>
    t.halted && t.pc == 0x0011 && t.flags == ⟨true, true, true⟩ && !running t) = true := by decide
/-- V6 -/
theorem test_fetch_out_of_bounds_halts : stepped { State.constructed 256 with pc := 0x0100 } (fun t =>
    t.halted && t.pc == 0x0101) = true := by decide
/-- V5 -/
theorem test_nop_pc_wraps : stepped (testState 65536 0xFFFF 0xF000 [] ⟨false, false, false⟩) (fun t =>
    t.pc == 0x0000 && running t) = true := by decide
/-- V7 -/
theorem test_halted_step_keeps_pc :
    stepped { testState 65536 0x0011 0x1005 [(3, 0x0042)] ⟨false, true, false⟩ with halted := true } (fun t =>
      t.pc == 0x0011 && readReg t 3 == 0x0042 && readReg t 0 == 0 && t.halted) = true := by decide
/-- V11, V12 -/
theorem test_movi_zero : vector 0x1000 [(0, 0xBEEF)] ⟨false, true, true⟩ 0 0x0000 ⟨true, false, false⟩ = true := by decide
theorem test_movi_not_sign_extended : vector 0x1FFF [] ⟨false, false, false⟩ 7 0x01FF ⟨false, false, false⟩ = true := by decide
/-- V14, V15 -/
theorem test_mov_negative : vector 0x2440 [(1, 0x8001)] ⟨false, false, false⟩ 2 0x8001 ⟨false, false, true⟩ = true := by decide
theorem test_mov_clears_carry : vector 0x2240 [] ⟨false, true, true⟩ 1 0x0000 ⟨true, false, false⟩ = true := by decide
/-- V23 -/
theorem test_load_own_word : vector 0x3040 [(1, 0x0010)] ⟨false, false, false⟩ 0 0x3040 ⟨false, false, false⟩ = true := by decide
/-- V22 -/
theorem test_load_out_of_bounds :
    stepped (testState 256 0x0010 0x3440 [(1, 0x0100), (2, 0x5555)] ⟨false, false, false⟩) (fun t =>
      readReg t 2 == 0 && t.flags == ⟨true, false, false⟩) = true := by decide
/-- V24 -/
theorem test_store : stepped (testState 65536 0x0010 0x48C0 [(4, 0x0010), (3, 0x0022)] ⟨true, true, true⟩) (fun t =>
    memRead t 0x0022 == 0x0010 && t.flags == ⟨true, true, true⟩ && readReg t 3 == 0x0022) = true := by decide
/-- V26 -/
theorem test_store_out_of_bounds :
    stepped (testState 256 0x0010 0x4040 [(0, 0xABCD), (1, 0x0100)] ⟨false, false, false⟩) (fun t =>
      t.mem == [(0x0010, 0x4040)] && t.pc == 0x0011) = true := by decide
/-- V31, V36 -/
theorem test_add_carry_out :
    vector 0x5040 [(0, 0xFFFF), (1, 0x0001)] ⟨false, false, false⟩ 0 0x0000 ⟨true, true, false⟩ = true := by decide
theorem test_add_no_carry_in :
    vector 0x5040 [(0, 0x8000), (1, 0x7FFF)] ⟨false, true, false⟩ 0 0xFFFF ⟨false, false, true⟩ = true := by decide
/-- V40, V41 -/
theorem test_sub_borrow :
    vector 0x6040 [(0, 0x0003), (1, 0x0005)] ⟨false, false, false⟩ 0 0xFFFE ⟨false, false, true⟩ = true := by decide
theorem test_sub_equal :
    vector 0x6040 [(0, 0x0005), (1, 0x0005)] ⟨false, false, false⟩ 0 0x0000 ⟨true, true, false⟩ = true := by decide
/-- V50, V53, V56, V57 -/
theorem test_and : vector 0x7400 [(2, 0xFE00), (0, 0x01FF)] ⟨false, true, true⟩ 2 0x0000 ⟨true, false, false⟩ = true := by decide
theorem test_or : vector 0x8200 [(1, 0xFE00), (0, 0x01FF)] ⟨false, false, false⟩ 1 0xFFFF ⟨false, false, true⟩ = true := by decide
theorem test_xor : vector 0x9280 [(1, 0x00FF), (2, 0xFFFF)] ⟨false, false, false⟩ 1 0xFF00 ⟨false, false, true⟩ = true := by decide
theorem test_not : vector 0xA200 [(0, 0x01FF), (1, 0x1111)] ⟨false, false, false⟩ 1 0xFE00 ⟨false, false, true⟩ = true := by decide
/-- V61, V66 -/
theorem test_shl_out : vector 0xB000 [(0, 0x8000)] ⟨false, false, false⟩ 0 0x0000 ⟨true, true, false⟩ = true := by decide
theorem test_shl_old_carry_not_in : vector 0xB000 [(0, 0x0001)] ⟨false, true, false⟩ 0 0x0002 ⟨false, false, false⟩ = true := by decide
/-- V71, V72 -/
theorem test_shr_out : vector 0xC000 [(0, 0x0001)] ⟨false, false, false⟩ 0 0x0000 ⟨true, true, false⟩ = true := by decide
theorem test_shr_logical : vector 0xC000 [(0, 0x8000)] ⟨false, false, false⟩ 0 0x4000 ⟨false, false, false⟩ = true := by decide
/-- V81, V83 -/
theorem test_jmp : stepped (testState 65536 0x0010 0xDEFF [(3, 0x0006), (7, 0x0099)] ⟨false, false, false⟩) (fun t =>
    t.pc == 0x0006 && readReg t 7 == 0x0099) = true := by decide
theorem test_jmp_out_of_bounds : stepped (testState 256 0x0010 0xD040 [(1, 0xFFFF)] ⟨false, false, false⟩) (fun t =>
    t.pc == 0xFFFF && running t) = true := by decide
/-- V84, V85 -/
theorem test_jz_taken : stepped (testState 65536 0x0010 0xE100 [(4, 0x000A)] ⟨true, false, false⟩) (fun t =>
    t.pc == 0x000A && t.flags == ⟨true, false, false⟩) = true := by decide
theorem test_jz_not_taken : stepped (testState 65536 0x0010 0xE100 [(4, 0x000A)] ⟨false, true, true⟩) (fun t =>
    t.pc == 0x0011 && t.flags == ⟨false, true, true⟩) = true := by decide

/-! ### Reset, run, the flag Word -/

/-- V90 -/
theorem test_host_reset :
    let s := hostReset { testState 65536 0x0004 0x1005 [(0, 0x0008)] ⟨false, true, true⟩ with halted := true }
    readReg s 0 = 0 ∧ s.pc = 0 ∧ s.flags = ⟨false, false, false⟩ ∧ s.halted = false ∧ memRead s 0x0004 = 0x1005 := by decide
/-- V92, V93 -/
theorem test_run_halted_answers_zero : (runWithin 5 { State.reset with halted := true }).map (·.2) = some 0 := by decide
theorem test_run_empty_memory_halts : (runWithin 5 State.reset).map (fun r => (r.1.pc, r.2)) = some (1, 1) := by decide
/-- R18 with decision D4: FLAGS[0] = Z, FLAGS[1] = C, FLAGS[2] = N. -/
theorem test_flag_word : Flags.pack ⟨true, false, true⟩ = 0x0005 ∧ Flags.pack ⟨false, true, false⟩ = 0x0002 := by decide

/-! ### The assembler (vectors A1 to A16) -/

/-- Assembly into an empty memory. -/
def assembled (source : String) (size : Nat) : AsmResult := assemble .default source.toList [] size

/-- A1, A2 -/
theorem test_asm_add_program :
    assembled "MOVI R0,5\nMOVI R1,3\nADD R0,R1\nHALT" 65536 = .ok [(0, 0x1005), (1, 0x1203), (2, 0x5040)] := by decide
theorem test_asm_loop : assembled "start:\nMOVI R0,0\nJZ start" 65536 = .ok [(0, 0x1000), (1, 0x1E00), (2, 0xE1C0)] := by decide
/-- A3, A5 -/
theorem test_asm_case_and_comment : assembled "movi r2, 0x1FF ; comment" 65536 = .ok [(0, 0x15FF)] := by decide
theorem test_asm_parentheses : assembled "LOAD R4, (R1)\nSTORE R4, (R3)" 65536 = .ok [(0, 0x3840), (1, 0x48C0)] := by decide
/-- A6, A7 -/
theorem test_asm_target_limit :
    assembled "JMP 512" 65536 = .error .targetTooLarge 1 ∧ assembled "JMP 511" 65536 = .ok [(0, 0x1FFF), (1, 0xD1C0)] := by decide
/-- A8, A9 -/
theorem test_asm_top_of_memory :
    assembled ".ORG 0xFFFF\n.WORD 0x1234" 65536 = .ok [(0xFFFF, 0x1234)] ∧
    assembled ".ORG 0x0100\nNOP" 256 = .error .programTooLarge 2 := by decide
/-- A10, A11, A12 -/
theorem test_asm_errors :
    assembled "MUL R0, R1" 65536 = .error (.unknown "MUL".toList) 1 ∧ assembled "MOV R8, R1" 65536 = .error .invalidRd 1 ∧
    assembled "MOV R1, R9" 65536 = .error .invalidRegister 1 := by decide
/-- A13, A15, A16 -/
theorem test_asm_poke : assembled ".WORD 5, 0xBEEF\nHALT" 65536 = .ok [(5, 0xBEEF)] := by decide
theorem test_asm_last_label_wins :
    assembled "x:\nNOP\nx:\nJMP x" 65536 = .ok [(0, 0xF000), (1, 0x1E01), (2, 0xD1C0)] := by decide
theorem test_asm_label_drift :
    assembled "JMP skip\nMOVI R0,1\nskip:\nMOVI R1,2\nHALT" 65536 =
      .ok [(0, 0x1E02), (1, 0xD1C0), (2, 0x1001), (3, 0x1202)] := by decide
/-- U23, D22 -/
theorem test_asm_refusals :
    assembled ".ORG 0x10000\nHALT" 65536 = .refused .orgNotRepresentable 1 ∧
    assembled "foo bar:" 65536 = .refused .identifierOpen 1 := by decide

/-- The choices of log 25 to 28, 30 and 31: no wrap of pass 1's counter, a leading zero, the operand count first, an unknown
directive, the data register of STORE, white space before a label's colon. -/
theorem test_asm_choices :
    assembled "JMP end\n.ORG 0xFFFF\nNOP\nend:" 65536 = .error .targetTooLarge 1 ∧
    assembled ".WORD 017" 65536 = .ok [(0, 17)] ∧
    assemble { AsmConfig.default with extraBases := fun _ => some 15 } ".WORD 017".toList [] 65536 = .ok [(0, 15)] ∧
    assembled "MOV R9" 65536 = .error .operandError 1 ∧
    assembled "STORE R9, R1" 65536 = .error .invalidRd 1 ∧
    assembled "loop :" 65536 = .refused .identifierOpen 1 ∧
    assembled "JMP 0x10005" 65536 = .ok [(0, 0x1E05), (1, 0xD1C0)] ∧
    assembled ".BYTE 1" 65536 = .error (.unknown ".BYTE".toList) 1 := by decide

/-! ### Witnesses: the hypotheses of the statements can be met -/

/-- A small good machine: STORE R0, R1 at pc 0x0010 with R1 = 0x0011, in a memory of 256 Words. -/
def storeMachine : State := testState 256 0x0010 0x4040 [(0, 0xF000), (1, 0x0011)] ⟨true, true, false⟩

/-- HaltedMachineStaysUntilReset, OnlyHaltHaltsOnlyResetResumes -/
theorem witness_halted : { storeMachine with halted := true }.halted = true := by decide
/-- StepRunsDecodedInstruction -/
theorem witness_step : storeMachine.halted = false ∧ decode (memRead storeMachine storeMachine.pc) = .store 0 1 := by decide
/-- ConstructedStateIsAllZero, ConstructedStateMeetsInvariant: both ends of the range; and the clause about cells -/
theorem witness_size : memorySizeInRange 1 = true ∧ memorySizeInRange 65536 = true ∧ 0 < 1 := by decide
/-- StepKeepsInvariant, EveryRunIsSafe, HostAccessKeepsInvariant -/
theorem witness_inv : storeMachine.Inv ∧ ∃ t, step storeMachine = .next t := ⟨by decide, _, rfl⟩
/-- AssemblyKeepsInvariant -/
theorem witness_load : storeMachine.Inv ∧ (hostLoad .default "NOP".toList storeMachine).isSome = true := by decide
/-- EqualMemoriesAreEqualData -/
theorem witness_equal_memories :
    let m := Memory.put (Memory.put [] 7 0x1234) 3 0x5678
    let m' := Memory.put (Memory.put [] 3 0x5678) 7 0x1234
    m.wf = true ∧ m'.wf = true ∧ ∀ a, m.cell a = m'.cell a := ⟨by decide, by decide, fun _ => rfl⟩
/-- RegistersAreIndividuallyAddressable -/
theorem witness_other_register : (7 : RegIndex) ≠ 0 := by decide
/-- BusReadAnswersCellOrZero, BusWriteStoresOneWordOrNothing, LoadReadsAddressedCell, StoreWritesAddressedCell,
LoadReturnsTheStoredWord, PlacedWordIsRunNext: the last address in bounds and the first out of bounds, by address and by
register, and another address -/
theorem witness_bounds :
    let s := writeReg (writeReg storeMachine 2 0x00FF) 3 0x0100
    (0x00FF : Word).toNat < s.memorySize ∧ s.memorySize ≤ (0x0100 : Word).toNat ∧
    inBounds s (effectiveAddress s 2) ∧ ¬ inBounds s (effectiveAddress s 3) ∧ inBounds s s.pc ∧
    (0x00FE : Word) ≠ effectiveAddress s 2 ∧ (0x00FE : Nat) ≠ s.pc.toNat := by decide
/-- DecodeOfEncodeIsIdentity, CodecLawsHoldInRange -/
theorem witness_codec :
    (Instr.movi 7 511).wellFormed = true ∧ (CodecCall.registerPair 15 7 7).wellFormed = true ∧
    (CodecCall.immediate 7 511).wellFormed = true ∧ decodeOpcode 0x1FFF = 1 := by decide
/-- MnemonicTableIsClosedAndCaseInsensitive -/
theorem witness_names :
    upperCase "sTore".toList = (mnemonic .store).toList ∧
    Opcode.all.all (fun op => upperCase "MUL".toList != (mnemonic op).toList) = true := by decide
/-- JzJumpsExactlyWhenZeroIsSet: both clauses -/
theorem witness_zero_flag : storeMachine.flags.z = true ∧ (State.constructed 1).flags.z = false := by decide
/-- OnlyTheDestinationRegisterChanges, FlagsAreWrittenByProducersOnly, OnlyStoreWritesMemory,
SubCarryIsCarryOutOfComplementSum, and the clause of OnlyHaltHaltsOnlyResetResumes about other instructions -/
theorem witness_exec : (∃ t, exec (.sub 0 1) storeMachine = .next t) ∧ Instr.sub 0 1 ≠ .halt := ⟨⟨_, rfl⟩, by decide⟩
/-- PcIsAdvancedOrJumpTarget: a halted machine, and one that is not -/
theorem witness_pc : (∃ t, step storeMachine = .next t) ∧ ∃ t, step { storeMachine with halted := true } = .next t :=
  ⟨⟨_, rfl⟩, ⟨_, rfl⟩⟩
/-- CarryAndNegativeSteerNothing: two machines that differ in C and N -/
theorem witness_carry_negative :
    let t := { storeMachine with flags := ⟨true, false, true⟩ }
    t ≠ storeMachine ∧ t.regs = storeMachine.regs ∧ t.pc = storeMachine.pc ∧ t.flags.z = storeMachine.flags.z ∧
    t.halted = storeMachine.halted ∧ t.mem = storeMachine.mem ∧ t.memorySize = storeMachine.memorySize := by decide
/-- ZeroFlagIsReadByJzOnly: its clause about JZ -/
theorem witness_same_zero : (⟨true, false, true⟩ : Flags).z = storeMachine.flags.z := by decide
/-- StoreIsSeenByNextFetch -/
theorem witness_self_modifying :
    storeMachine.halted = false ∧ decode (memRead storeMachine storeMachine.pc) = .store 0 1 ∧
    readReg storeMachine 1 = storeMachine.pc + 1 ∧ inBounds storeMachine (storeMachine.pc + 1) := by decide
/-- FetchBeyondMemoryHalts, ZeroWordHalts -/
theorem witness_beyond :
    let s := { State.constructed 256 with pc := 0x0100 }
    s.halted = false ∧ ¬ inBounds s s.pc ∧ memRead s s.pc = 0 ∧
    (State.constructed 256).halted = false ∧ memRead (State.constructed 256) 0 = 0 := by decide
/-- ExpandedJzJumpsExactlyToZero: a zero and a non-zero target -/
theorem witness_expanded_jz :
    let s := memWrite (testState 256 0 (encodeImmediate 7 5) [] ⟨true, false, false⟩) 1 0xE1C0
    let z := memWrite (testState 256 0 (encodeImmediate 7 0) [] ⟨false, false, false⟩) 1 0xE1C0
    s.halted = false ∧ memRead s s.pc = encodeImmediate 7 (5 : Imm9).toNat ∧ memRead s (s.pc + 1) = 0xE1C0 ∧
    z.halted = false ∧ memRead z z.pc = encodeImmediate 7 (0 : Imm9).toNat ∧ memRead z (z.pc + 1) = 0xE1C0 := by decide
/-- RunCountsStepsToTheFirstHaltedState: both clauses -/
theorem witness_run :
    (runWithin 1 State.reset).map (·.2) = some 1 ∧
    ∃ u : State, Host.Core.run core 1 State.reset = .next u ∧ u.halted = true := ⟨by decide, _, rfl, rfl⟩
/-- JumpTargetExpandsThroughRegisterSeven: a target at the limit and one above -/
theorem witness_jump_targets :
    registerNamed "511".toList = none ∧ operandValue .default [] "511".toList = some 511 ∧
    registerNamed "512".toList = none ∧ operandValue .default [] "512".toList = some 512 := by decide
/-- ExpandedJumpsDriftTheLabels: an expanded jump and another instruction -/
theorem witness_drift :
    (∃ at' : Nat × Memory, passTwoLine .default [] 256 (0, []) (.instruction .jmp ["5".toList]) = .ok at') ∧
    ∃ at' : Nat × Memory, passTwoLine .default [] 256 (0, []) (.instruction .nop []) = .ok at' := ⟨⟨_, rfl⟩, ⟨_, rfl⟩⟩
/-- EmissionFailsExactlyAtMemorySize: the last cell, the first cursor refused, another cell -/
theorem witness_cursor : 255 < 256 ∧ 256 ≤ 256 ∧ 254 ≠ 255 := by decide

end Sys2Proof.Machine
end

section
/-! PROOFS. The register file and the halted status (10_state.md R10, R23). -/

namespace Sys2Proof.Machine

/-- Settles O14: a read after a write is the written Word at its own index and the old one elsewhere. -/
theorem registersAreIndividuallyAddressable : Obligations.RegistersAreIndividuallyAddressable := by
  intro s d v
  constructor
  · rw [readReg_writeReg, if_pos rfl]
  · intro q hq
    rw [readReg_writeReg, if_neg hq]

/-- Every effect but HALT's is a write-back, a Bus write, a jump or nothing, and none of these reaches the halted status. -/
theorem effect_halted_of_ne_halt {i : Instr} (hi : i ≠ .halt) (s : State) : (effect i s).halted = s.halted := by
  cases i with
  | halt => exact absurd rfl hi
  | movi | mov | load | add | sub | and | or | xor | not | shl | shr => exact writeResult_halted ..
  | store => exact memWrite_halted ..
  | jmp => exact setPc_halted ..
  | jz rs =>
    rw [effect]
    split
    · exact setPc_halted ..
    · rfl
  | nop => rfl

/-- Settles O36: HALT's effect sets the status, every other effect keeps it, a halted step answers its own state, and
construction and `reset()` hold it false. -/
theorem onlyHaltHaltsOnlyResetResumes : Obligations.OnlyHaltHaltsOnlyResetResumes := by
  refine ⟨fun _ => rfl, ?halts, ?keeps, fun _ => step_halted, hostReset_halted⟩
  case halts =>
    intro s
    exact ⟨effect .halt s, exec_eq_effect .halt s, setHalted_halted s⟩
  case keeps =>
    intro i s t hexec hi
    rw [exec_next_iff.mp hexec]
    exact effect_halted_of_ne_halt hi s

end Sys2Proof.Machine
end

section
/-! PROOFS. The Bus read and the Bus write (20_memory.md R31, R32). -/

namespace Sys2Proof.Machine

/-- The Word a Bus write leaves in each cell, in any memory. -/
@[simp] theorem Memory.cell_busWrite (m : Memory) (size a b : Nat) (v : Word) :
    (m.busWrite size a v).cell b = if a < size ∧ b = a then v else m.cell b := by
  unfold Memory.busWrite
  split
  · next ha => simp only [cell_put, ha, true_and]
  · next ha => rw [if_neg fun h => ha h.1]

theorem memRead_of_inBounds {s : State} {a : Word} (h : inBounds s a) : memRead s a = s.mem.cell a.toNat :=
  if_pos h

theorem memRead_of_not_inBounds {s : State} {a : Word} (h : ¬ inBounds s a) : memRead s a = 0 :=
  if_neg h

theorem memWrite_of_not_inBounds {s : State} {a : Word} (h : ¬ inBounds s a) (v : Word) : memWrite s a v = s := by
  rw [memWrite, Memory.busWrite, if_neg h]

/-- Settles O15: the two branches of the Bus read. -/
theorem busReadAnswersCellOrZero : Obligations.BusReadAnswersCellOrZero := by
  intro s addr
  exact ⟨memRead_of_inBounds, fun hout => memRead_of_not_inBounds hout.not_gt⟩

/-- Settles O16: `Memory.cell_busWrite` gives every cell after the write; a Bus read of the written address answers its
cell, because the write keeps the memory size; the other fields are not written. -/
theorem busWriteStoresOneWordOrNothing : Obligations.BusWriteStoresOneWordOrNothing := by
  intro s addr v
  refine ⟨fun hin => ?stored, fun hout => memWrite_of_not_inBounds hout.not_gt v, fun a hne => ?others,
    readReg_memWrite s addr v, memWrite_pc .., memWrite_flags .., memWrite_halted .., memWrite_memorySize ..⟩
  case stored =>
    have hcell : (memWrite s addr v).mem.cell addr.toNat = v := by
      rw [memWrite_mem, Memory.cell_busWrite, if_pos ⟨hin, rfl⟩]
    have hin' : inBounds (memWrite s addr v) addr := hin
    exact ⟨hcell, (memRead_of_inBounds hin').trans hcell⟩
  case others =>
    rw [memWrite_mem, Memory.cell_busWrite, if_neg fun h => hne h.2]

end Sys2Proof.Machine
end

section
/-! PROOFS. The mnemonic table (30_encoding.md R61). -/

namespace Sys2Proof

theorem Opcode.mem_all (op : Opcode) : op ∈ Opcode.all := by
  cases op <;> decide

/-- No mnemonic names two operations. -/
theorem mnemonic_injective : Function.Injective mnemonic := by
  intro a b hab
  have hnodup : (Opcode.all.map mnemonic).Nodup := by decide
  exact List.inj_on_of_nodup_map hnodup (Opcode.mem_all a) (Opcode.mem_all b) hab

theorem operationNamed_eq_none_iff {name : List Char} :
    operationNamed name = none ↔ ∀ op : Opcode, upperCase name ≠ (mnemonic op).toList := by
  simp only [operationNamed, List.find?_eq_none, beq_iff_eq, Opcode.mem_all, true_imp_iff, ne_comm, ne_eq]

theorem upperCase_eq_of_operationNamed {name : List Char} {op : Opcode} (h : operationNamed name = some op) :
    upperCase name = (mnemonic op).toList := by
  rw [operationNamed] at h
  have hmatch := List.find?_some h
  exact (eq_of_beq hmatch).symm

/-- The operation the search finds is the only one of that name, because no two share a mnemonic. -/
theorem operationNamed_eq_some_iff {name : List Char} {op : Opcode} :
    operationNamed name = some op ↔ upperCase name = (mnemonic op).toList := by
  refine ⟨upperCase_eq_of_operationNamed, fun hname => ?_⟩
  cases hsearch : operationNamed name with
  | none => exact absurd hname (operationNamed_eq_none_iff.mp hsearch op)
  | some found =>
    have hsame : (mnemonic found).toList = (mnemonic op).toList :=
      (upperCase_eq_of_operationNamed hsearch).symm.trans hname
    rw [mnemonic_injective (String.toList_inj.mp hsame)]

end Sys2Proof

namespace Sys2Proof.Machine

/-- Settles O22: the table search finds exactly the operation whose mnemonic the upper-cased name is, or nothing; the list
of mnemonics is gone through operation by operation. -/
theorem mnemonicTableIsClosedAndCaseInsensitive : Obligations.MnemonicTableIsClosedAndCaseInsensitive := by
  refine ⟨fun name op hname => ?found, fun name hnone => ?notFound, fun op => ?listed⟩
  case found => rw [opcodeForMnemonic, operationNamed_eq_some_iff.mpr hname, Option.map_some]
  case notFound => rw [opcodeForMnemonic, operationNamed_eq_none_iff.mpr hnone, Option.map_none]
  case listed => cases op <;> decide

end Sys2Proof.Machine
end

section
/-! PROOFS. The halted machine and the value of a step (40_step_halt_nop.md R91, R95). -/

namespace Sys2Proof.Machine

/-- A run of `k + 1` steps whose first step answers `t` is the run of `k` steps from `t`. -/
theorem run_succ_of_step {M : Host.Core} {s t : M.State} (hstep : M.step s = .next t) (k : Nat) :
    M.run (k + 1) s = M.run k t := by
  rw [Host.Core.run, hstep]

/-- A state that one step keeps is kept by any number of steps. -/
theorem run_of_step_eq_self {M : Host.Core} {s : M.State} (hstep : M.step s = .next s) (k : Nat) :
    M.run k s = .next s := by
  induction k with
  | zero => rfl
  | succ k ih => exact (run_succ_of_step hstep k).trans ih

/-- Settles O4: a halted step keeps the state, so every run does; `reset()` clears the status. -/
theorem haltedMachineStaysUntilReset : Obligations.HaltedMachineStaysUntilReset := by
  intro s hs
  exact ⟨run_of_step_eq_self (M := core) (step_halted hs), hostReset_halted s⟩

/-- The value of a step is false exactly where the next state is halted. -/
theorem running_eq_false_iff {s : State} : running s = false ↔ s.halted = true := by
  rw [running, Bool.not_eq_false']

/-- From a machine that is not halted, exactly the effect of HALT leaves it halted. -/
theorem effect_halted_iff {i : Instr} {s : State} (hs : s.halted = false) : (effect i s).halted = true ↔ i = .halt := by
  constructor
  · intro heff
    by_contra hi
    rw [effect_halted_of_ne_halt hi, hs] at heff
    exact Bool.false_ne_true heff
  · rintro rfl
    exact setHalted_halted s

/-- Settles O6: a halted step answers the halted state itself; any other step answers the effect of the Word at pc, which
is halted exactly for HALT. -/
theorem stepReturnsFalseExactlyOnHalt : Obligations.StepReturnsFalseExactlyOnHalt := by
  intro s
  cases hs : s.halted with
  | true => exact ⟨s, step_halted hs, rfl, iff_of_true (running_eq_false_iff.mpr hs) (.inl rfl)⟩
  | false =>
    refine ⟨effect (decode (fetch s)) (advancePc s), step_eq_effect hs, rfl, ?_⟩
    have hadvance : (advancePc s).halted = false := hs
    calc running (effect (decode (fetch s)) (advancePc s)) = false
        ↔ decode (fetch s) = .halt := running_eq_false_iff.trans (effect_halted_iff hadvance)
      _ ↔ false = true ∨ decode (memRead s s.pc) = .halt := (or_iff_right Bool.false_ne_true).symm

end Sys2Proof.Machine
end

section
/-! PROOFS. The machine after construction and after `reset()` (70_reset_and_hazards.md R190, R191). -/

namespace Sys2Proof.Machine

@[simp] theorem constructed_pc (n : Nat) : (State.constructed n).pc = 0 := rfl
@[simp] theorem constructed_flags (n : Nat) : (State.constructed n).flags = ⟨false, false, false⟩ := rfl
@[simp] theorem constructed_halted (n : Nat) : (State.constructed n).halted = false := rfl
@[simp] theorem constructed_mem (n : Nat) : (State.constructed n).mem = [] := rfl
@[simp] theorem constructed_memorySize (n : Nat) : (State.constructed n).memorySize = n := rfl

@[simp] theorem readReg_constructed (n : Nat) (r : RegIndex) : readReg (State.constructed n) r = 0 :=
  Vector.getElem_replicate r.isLt

/-- `reset()` leaves the register file of construction (R191, "the engine state equals the construction state"). -/
@[simp] theorem readReg_hostReset (s : State) (r : RegIndex) : readReg (hostReset s) r = 0 := by
  have hregs : (hostReset s).regs = (State.constructed s.memorySize).regs := hostReset_regs s
  rw [readReg_congr hregs, readReg_constructed]

@[simp] theorem Memory.cell_nil (a : Nat) : Memory.cell [] a = 0 := rfl

/-- Settles O1: the register file is eight zeros, the memory array lists no cell, and the other fields are the ones
construction sets. -/
theorem constructedStateIsAllZero : Obligations.ConstructedStateIsAllZero := by
  intro n _
  have hflags := constructed_flags n
  refine ⟨readReg_constructed n, constructed_pc n, congrArg Flags.z hflags, congrArg Flags.c hflags,
    congrArg Flags.n hflags, constructed_halted n, constructed_memorySize n, fun a _ => ?cells⟩
  case cells => rw [constructed_mem, Memory.cell_nil]

/-- Settles O2: `reset()` answers the constructed engine in every field but the memory array, which it hands over, and the
memory size, which it constructs with. -/
theorem hostResetZeroesEngineKeepsMemory : Obligations.HostResetZeroesEngineKeepsMemory := by
  intro s
  have hflags := hostReset_flags s
  refine ⟨readReg_hostReset s, hostReset_pc s, congrArg Flags.z hflags, congrArg Flags.c hflags,
    congrArg Flags.n hflags, hostReset_halted s, hostReset_memorySize s, fun a => ?cells⟩
  case cells => rw [hostReset_mem]

end Sys2Proof.Machine
end

section
/-! PROOFS. A step as a function: every step answers a next state (60_exceptions.md R170), so a run of `k` steps is the
`k`-th iterate of that function. -/

namespace Sys2Proof.Machine

/-- The state one step answers: a halted machine's own, otherwise the effect of the fetched Word with pc advanced. -/
def nextState (s : State) : State :=
  if s.halted then s else effect (decode (fetch s)) (advancePc s)

theorem step_eq_nextState (s : State) : step s = .next (nextState s) := by
  unfold nextState
  split
  · next h => exact step_halted h
  · next h => exact step_eq_effect (eq_false_of_ne_true h)

theorem step_next_iff {s t : State} : step s = .next t ↔ t = nextState s := by
  rw [step_eq_nextState, Host.Outcome.next.injEq, eq_comm]

theorem nextState_of_halted {s : State} (h : s.halted = true) : nextState s = s :=
  if_pos h

theorem nextState_of_not_halted {s : State} (h : s.halted = false) :
    nextState s = effect (decode (fetch s)) (advancePc s) :=
  if_neg (Bool.eq_false_iff.mp h)

/-- No run faults or is refused: it answers the iterate. -/
theorem run_eq_iterate (k : Nat) (s : State) : Host.Core.run core k s = .next (nextState^[k] s) := by
  induction k generalizing s with
  | zero => rfl
  | succ k ih => exact (run_succ_of_step (M := core) (step_eq_nextState s) k).trans (ih (nextState s))

end Sys2Proof.Machine
end

section
/-! PROOFS. The invariant (20_memory.md section 1): what each effect does to memory, the step, the run, the host's
operations. -/

namespace Sys2Proof.Machine

/-- The invariant depends on the memory array and its size alone. -/
theorem State.Inv.congr {s t : State} (hs : s.Inv) (hmem : t.mem = s.mem) (hsize : t.memorySize = s.memorySize) :
    t.Inv := by
  rw [State.Inv, hmem, hsize]
  exact hs

theorem State.Inv.after_write {s : State} (hs : s.Inv) (a v : Word) : (memWrite s a v).Inv := by
  obtain ⟨hwf, hwithin, hrange⟩ := hs
  exact ⟨memWrite_wf s a v hwf, memWrite_within s a v hwithin, hrange⟩

@[simp] theorem effect_memorySize (i : Instr) (s : State) : (effect i s).memorySize = s.memorySize := by
  cases i with
  | halt => exact setHalted_memorySize ..
  | movi | mov | load | add | sub | and | or | xor | not | shl | shr => exact writeResult_memorySize ..
  | store => exact memWrite_memorySize ..
  | jmp => exact setPc_memorySize ..
  | jz rs => rw [effect]; split <;> rfl
  | nop => rfl

/-- Every effect but STORE's leaves the memory array alone. -/
theorem effect_mem_of_ne_store {i : Instr} (hi : ∀ rd rs, i ≠ .store rd rs) (s : State) : (effect i s).mem = s.mem := by
  cases i with
  | halt => exact setHalted_mem ..
  | movi | mov | load | add | sub | and | or | xor | not | shl | shr => exact writeResult_mem ..
  | store rd rs => exact absurd rfl (hi rd rs)
  | jmp => exact setPc_mem ..
  | jz rs => rw [effect]; split <;> rfl
  | nop => rfl

theorem State.Inv.after_effect {s : State} (hs : s.Inv) (i : Instr) : (effect i s).Inv := by
  by_cases hstore : ∃ rd rs, i = .store rd rs
  · obtain ⟨rd, rs, rfl⟩ := hstore
    exact hs.after_write ..
  · push Not at hstore
    exact hs.congr (effect_mem_of_ne_store hstore s) (effect_memorySize i s)

@[simp] theorem nextState_memorySize (s : State) : (nextState s).memorySize = s.memorySize := by
  cases h : s.halted with
  | true => rw [nextState_of_halted h]
  | false => rw [nextState_of_not_halted h, effect_memorySize, advancePc_memorySize]

theorem State.Inv.after_step {s : State} (hs : s.Inv) : (nextState s).Inv := by
  cases h : s.halted with
  | true => rwa [nextState_of_halted h]
  | false =>
    have hadvance : (advancePc s).Inv := hs.congr (advancePc_mem s) (advancePc_memorySize s)
    rw [nextState_of_not_halted h]
    exact hadvance.after_effect _

/-- Settles O9: of all effects only STORE's writes memory, through the Bus, which keeps the canonical form and the bound. -/
theorem stepKeepsInvariant : Obligations.StepKeepsInvariant := by
  intro s t hs hstep
  rw [step_next_iff.mp hstep]
  exact ⟨hs.after_step, nextState_memorySize s⟩

/-- Settles O10: a run answers the iterate of the step, and each iterate keeps the invariant. -/
theorem everyRunIsSafe : Obligations.EveryRunIsSafe := by
  intro s hs k
  exact ⟨nextState^[k] s, run_eq_iterate k s, Function.Iterate.rec State.Inv hs (fun _ => State.Inv.after_step) k⟩

/-- Placing a Word at pc makes room for its cell, which the 16 bits of pc keep below 65536. -/
theorem State.Inv.after_placing {s : State} (hs : s.Inv) (w : Word) : (placeAtPc s w).Inv := by
  obtain ⟨hwf, hwithin, hrange⟩ := hs
  have hpc : s.pc.toNat < 65536 := s.pc.isLt
  refine ⟨Memory.wf_put _ _ hwf, ?within, ?range⟩
  case within =>
    rw [placeAtPc_mem, placeAtPc_memorySize]
    have hroom := Memory.within_mono hwithin (le_max_left s.memorySize (s.pc.toNat + 1))
    exact Memory.within_put w hroom (by omega)
  case range =>
    rw [placeAtPc_memorySize]
    simp only [memorySizeInRange, Bool.and_eq_true, decide_eq_true_eq] at hrange ⊢
    omega

/-- Settles O11: `reset()` keeps the memory array, a host write is a Bus write, and a placed Word gets its room. -/
theorem hostAccessKeepsInvariant : Obligations.HostAccessKeepsInvariant := by
  intro s hs
  exact ⟨hs.congr (hostReset_mem s) (hostReset_memorySize s), hs.after_write, fun _ _ => hs.after_placing _⟩

/-- An empty memory meets the invariant at every size in range. -/
theorem constructed_inv {n : Nat} (hn : memorySizeInRange n = true) : (State.constructed n).Inv :=
  ⟨Memory.wf_nil, rfl, hn⟩

/-- Settles O8: construction leaves an empty memory, and 65536 is in range. -/
theorem constructedStateMeetsInvariant : Obligations.ConstructedStateMeetsInvariant :=
  ⟨rfl, constructed_inv (by decide), fun _ => constructed_inv⟩

end Sys2Proof.Machine
end

section
/-! PROOFS. The canonical form is unique: two canonical memories that read alike are the same list (log 10). -/

namespace Sys2Proof.Machine

theorem Memory.cell_cons_self (m : Memory) (a : Nat) (v : Word) : Memory.cell ((a, v) :: m) a = v :=
  if_pos rfl

theorem Memory.cell_cons_of_ne (m : Memory) {a b : Nat} (v : Word) (h : b ≠ a) :
    Memory.cell ((a, v) :: m) b = m.cell b :=
  if_neg h.symm

/-- A cell below every listed address reads 0. -/
theorem Memory.cell_eq_zero_of_lt {m : Memory} {a : Nat} (h : ∀ p ∈ m, a < p.1) : m.cell a = 0 := by
  induction m with
  | nil => rfl
  | cons p m ih =>
    rw [List.forall_mem_cons] at h
    obtain ⟨hhead, htail⟩ := h
    rw [cell_cons_of_ne m p.2 hhead.ne, ih htail]

/-- The least address that one canonical memory lists is not below the least that another lists which reads alike there. -/
theorem Memory.head_le_of_cell_eq {a b : Nat} {v w : Word} {m n : Memory} (hm : Memory.wf ((a, v) :: m) = true)
    (hn : Memory.wf ((b, w) :: n) = true) (hcell : Memory.cell ((a, v) :: m) a = Memory.cell ((b, w) :: n) a) :
    b ≤ a := by
  obtain ⟨hv, -, -⟩ := wf_cons.mp hm
  obtain ⟨-, hlt, -⟩ := wf_cons.mp hn
  by_contra hba
  have hbelow : ∀ p ∈ (b, w) :: n, a < p.1 := by
    rw [List.forall_mem_cons]
    exact ⟨not_le.mp hba, fun p hp => (not_le.mp hba).trans (hlt p hp)⟩
  rw [cell_cons_self, cell_eq_zero_of_lt hbelow] at hcell
  exact hv hcell

/-- A canonical memory that lists a cell does not read 0 there, so it reads otherwise than the empty one. -/
theorem Memory.cell_head_ne_zero {a : Nat} {v : Word} {m : Memory} (hm : Memory.wf ((a, v) :: m) = true) :
    Memory.cell ((a, v) :: m) a ≠ 0 := by
  rw [cell_cons_self]
  exact (wf_cons.mp hm).1

/-- Settles O13, by induction on the first list: the heads have the same least address, hence the same Word, and the tails
read alike, both 0 at the head's address. -/
theorem equalMemoriesAreEqualData : Obligations.EqualMemoriesAreEqualData := by
  intro m₁
  induction m₁ with
  | nil =>
    intro m₂ _ hwf₂ hcell
    cases m₂ with
    | nil => rfl
    | cons q n => exact absurd (hcell q.1).symm (Memory.cell_head_ne_zero hwf₂)
  | cons p m ih =>
    intro m₂ hwf₁ hwf₂ hcell
    cases m₂ with
    | nil => exact absurd (hcell p.1) (Memory.cell_head_ne_zero hwf₁)
    | cons q n =>
      obtain ⟨a, v⟩ := p
      obtain ⟨b, w⟩ := q
      obtain rfl : a = b := Nat.le_antisymm (Memory.head_le_of_cell_eq hwf₂ hwf₁ (hcell b).symm)
        (Memory.head_le_of_cell_eq hwf₁ hwf₂ (hcell a))
      obtain ⟨-, hlt₁, hm⟩ := Memory.wf_cons.mp hwf₁
      obtain ⟨-, hlt₂, hn⟩ := Memory.wf_cons.mp hwf₂
      have hword : v = w := by
        have hhead := hcell a
        rwa [Memory.cell_cons_self, Memory.cell_cons_self] at hhead
      have htails : ∀ c, Memory.cell m c = Memory.cell n c := by
        intro c
        by_cases hca : c = a
        · rw [hca, Memory.cell_eq_zero_of_lt hlt₁, Memory.cell_eq_zero_of_lt hlt₂]
        · have hboth := hcell c
          rwa [Memory.cell_cons_of_ne m v hca, Memory.cell_cons_of_ne n w hca] at hboth
      rw [hword, ih n hm hn htails]

end Sys2Proof.Machine
end

section
/-! PROOFS. The write-back of a flag producer, said once: what it writes and its frame (10_state.md sections 1 and 3). -/

namespace Sys2Proof.Machine

theorem readReg_writeResult_self (s : State) (d : RegIndex) (v : Word) (c : Bool) :
    readReg (writeResult s d v c) d = v := by
  rw [readReg_writeResult, if_pos rfl]

theorem sameRegsBut_writeResult (s : State) (d : RegIndex) (v : Word) (c : Bool) :
    SameRegsBut d s (writeResult s d v c) := by
  intro q hq
  rw [readReg_writeResult, if_neg hq]

theorem sameRegs_of_regs_eq {s t : State} (h : t.regs = s.regs) : SameRegs s t :=
  readReg_congr h

theorem sameMemory_of_mem_eq {s t : State} (hmem : t.mem = s.mem) (hsize : t.memorySize = s.memorySize) :
    SameMemory s t :=
  ⟨hsize, memRead_congr hmem hsize⟩

theorem onlyRegAndFlags_writeResult (s : State) (d : RegIndex) (v : Word) (c : Bool) :
    OnlyRegAndFlags d s (writeResult s d v c) :=
  ⟨sameRegsBut_writeResult s d v c, sameMemory_of_mem_eq (writeResult_mem ..) (writeResult_memorySize ..),
    writeResult_pc .., writeResult_halted ..⟩

theorem zeroFlag_iff {v : Word} : zeroFlag v = true ↔ v.toNat = 0 := by
  rw [zeroFlag, beq_iff_eq, ← BitVec.toNat_inj]
  rfl

theorem negativeFlag_iff {v : Word} : negativeFlag v = true ↔ 32768 ≤ v.toNat := by
  rw [negativeFlag, BitVec.msb_eq_decide, decide_eq_true_eq]

theorem negativeFlag_eq_false {v : Word} (h : v.toNat < 32768) : negativeFlag v = false :=
  eq_false_of_ne_true fun hn => h.not_ge (negativeFlag_iff.mp hn)

/-- The flags of a write-back, for the register's new Word: Z and N are of that Word, C is the instruction's own. -/
theorem flagsFor_writeResult {s : State} {d : RegIndex} {v : Word} {c : Bool} {carry : Prop} (hc : c = true ↔ carry) :
    FlagsFor (writeResult s d v c) (readReg (writeResult s d v c) d) carry := by
  rw [readReg_writeResult_self]
  exact ⟨zeroFlag_iff, negativeFlag_iff, hc⟩

theorem noCarry_iff : noCarry = true ↔ False := by
  rw [noCarry, Bool.false_eq_true]

theorem addCarry_iff {a b : Word} : addCarry a b = true ↔ 0xFFFF < a.toNat + b.toNat :=
  decide_eq_true_iff

theorem subCarry_iff {a b : Word} : subCarry a b = true ↔ b.toNat ≤ a.toNat :=
  decide_eq_true_iff

theorem shlCarry_iff {a : Word} : shlCarry a = true ↔ a.getLsbD 15 = true := by
  rw [shlCarry, BitVec.msb_eq_getLsbD_last]

theorem shrCarry_iff {a : Word} : shrCarry a = true ↔ a.getLsbD 0 = true :=
  Iff.rfl

/-- An immediate of 9 bits is zero-extended: it keeps its value (R63). -/
theorem immediateOperand_toNat (imm : Imm9) : (immediateOperand imm).toNat = imm.toNat :=
  BitVec.toNat_setWidth_of_le (by decide)

theorem negativeFlag_immediateOperand (imm : Imm9) : negativeFlag (immediateOperand imm) = false := by
  have himm : imm.toNat < 512 := imm.isLt
  exact negativeFlag_eq_false (by rw [immediateOperand_toNat]; omega)

theorem shiftRight_one_toNat (a : Word) : (a >>> 1).toNat = a.toNat / 2 := by
  rw [BitVec.toNat_ushiftRight, Nat.shiftRight_eq_div_pow, pow_one]

theorem shiftLeft_one_toNat (a : Word) : (a <<< 1).toNat = 2 * a.toNat % 65536 := by
  rw [BitVec.toNat_shiftLeft, Nat.shiftLeft_eq, pow_one, Nat.mul_comm]

/-- A logical shift right brings a zero into bit 15. -/
theorem negativeFlag_shiftRight_one (a : Word) : negativeFlag (a >>> 1) = false := by
  have ha : a.toNat < 65536 := a.isLt
  exact negativeFlag_eq_false (by rw [shiftRight_one_toNat]; omega)

end Sys2Proof.Machine
end

section
/-! PROOFS. The tables of 10_state.md: which register, which flags, which Word of memory an instruction writes. -/

namespace Sys2Proof

/-- The register an instruction writes, by the access table (10_state.md section 1); those that have one are the flag
producers (10_state.md section 3). -/
def Instr.destination : Instr → Option RegIndex
  | .halt | .store _ _ | .jmp _ | .jz _ | .nop => none
  | .movi d _ | .mov d _ | .load d _ | .add d _ | .sub d _ | .and d _ | .or d _ | .xor d _ | .not d _
  | .shl d | .shr d => some d

end Sys2Proof

namespace Sys2Proof.Machine

/-- An instruction with a destination is a write-back to it. -/
theorem effect_eq_writeResult {i : Instr} {d : RegIndex} (hi : i.destination = some d) (s : State) :
    ∃ v c, effect i s = writeResult s d v c := by
  cases i with
  | halt | store | jmp | jz | nop => exact nomatch hi
  | movi | mov | load | add | sub | and | or | xor | not | shl | shr =>
    obtain rfl := Option.some.inj hi
    exact ⟨_, _, rfl⟩

/-- A jump that JZ takes or not changes pc at most. -/
theorem effect_jz_cases (rs : RegIndex) (s : State) :
    (s.flags.z = true ∧ effect (.jz rs) s = setPc s (jumpTarget s rs)) ∨
    (s.flags.z = false ∧ effect (.jz rs) s = s) := by
  cases hz : s.flags.z with
  | true => exact .inl ⟨rfl, if_pos hz⟩
  | false => exact .inr ⟨rfl, if_neg (Bool.eq_false_iff.mp hz)⟩

/-- An instruction without a destination leaves the register file and the flags. -/
theorem effect_regs_flags {i : Instr} (hi : i.destination = none) (s : State) :
    (effect i s).regs = s.regs ∧ (effect i s).flags = s.flags := by
  cases i with
  | halt => exact ⟨setHalted_regs s, setHalted_flags s⟩
  | store => exact ⟨memWrite_regs .., memWrite_flags ..⟩
  | jmp => exact ⟨setPc_regs .., setPc_flags ..⟩
  | jz rs => rcases effect_jz_cases rs s with ⟨-, heff⟩ | ⟨-, heff⟩ <;> rw [heff] <;> exact ⟨rfl, rfl⟩
  | nop => exact ⟨rfl, rfl⟩
  | movi | mov | load | add | sub | and | or | xor | not | shl | shr => exact nomatch hi

theorem sameRegs_effect {i : Instr} (hi : i.destination = none) (s : State) : SameRegs s (effect i s) :=
  sameRegs_of_regs_eq (effect_regs_flags hi s).1

theorem effect_flags {i : Instr} (hi : i.destination = none) (s : State) : (effect i s).flags = s.flags :=
  (effect_regs_flags hi s).2

theorem onlyRegAndFlags_effect {i : Instr} {d : RegIndex} (hi : i.destination = some d) (s : State) :
    OnlyRegAndFlags d s (effect i s) := by
  obtain ⟨v, c, heff⟩ := effect_eq_writeResult hi s
  rw [heff]
  exact onlyRegAndFlags_writeResult s d v c

theorem sameRegsBut_effect {i : Instr} {d : RegIndex} (hi : i.destination = some d) (s : State) :
    SameRegsBut d s (effect i s) :=
  (onlyRegAndFlags_effect hi s).1

theorem sameMemory_effect {i : Instr} (hi : ∀ rd rs, i ≠ .store rd rs) (s : State) : SameMemory s (effect i s) :=
  sameMemory_of_mem_eq (effect_mem_of_ne_store hi s) (effect_memorySize i s)

/-- Settles O37: the two halves of the access table, with and without a destination. -/
theorem onlyTheDestinationRegisterChanges : Obligations.OnlyTheDestinationRegisterChanges := by
  intro i s t hexec
  obtain rfl := exec_next_iff.mp hexec
  cases i with
  | halt | store | jmp | jz | nop => exact sameRegs_effect rfl s
  | movi | mov | load | add | sub | and | or | xor | not | shl | shr => exact sameRegsBut_effect rfl s

/-- Settles O38: without a destination the flags stay; a producer's write-back sets them, C by the row's own rule. -/
theorem flagsAreWrittenByProducersOnly : Obligations.FlagsAreWrittenByProducersOnly := by
  intro i s t hexec
  obtain rfl := exec_next_iff.mp hexec
  cases i with
  | halt | store | jmp | jz | nop => exact effect_flags rfl s
  | movi d imm => exact ⟨flagsFor_writeResult noCarry_iff, negativeFlag_immediateOperand imm⟩
  | mov | load | and | or | xor | not => exact flagsFor_writeResult noCarry_iff
  | add => exact flagsFor_writeResult addCarry_iff
  | sub => exact flagsFor_writeResult subCarry_iff
  | shl => exact flagsFor_writeResult shlCarry_iff
  | shr d => exact ⟨flagsFor_writeResult shrCarry_iff, negativeFlag_shiftRight_one (registerOperand s d)⟩

theorem memRead_memWrite_of_ne (s : State) {a b : Word} (v : Word) (h : b ≠ a) :
    memRead (memWrite s a v) b = memRead s b := by
  obtain ⟨-, -, hcells, -⟩ := busWriteStoresOneWordOrNothing s a v
  simp only [memRead, Memory.busRead, memWrite_memorySize, hcells b.toNat (BitVec.toNat_inj.not.mpr h)]

theorem memRead_memWrite_self {s : State} {a : Word} (v : Word) (h : inBounds s a) :
    memRead (memWrite s a v) a = v := by
  obtain ⟨hstored, -⟩ := busWriteStoresOneWordOrNothing s a v
  exact (hstored h).2

/-- Settles O39: STORE's effect is a Bus write, whose other Words stay; every other effect keeps the memory array. -/
theorem onlyStoreWritesMemory : Obligations.OnlyStoreWritesMemory := by
  intro i s t hexec
  obtain rfl := exec_next_iff.mp hexec
  refine ⟨effect_memorySize i s, fun a => ?words⟩
  case words =>
    cases i with
    | store => exact memRead_memWrite_of_ne s _
    | halt | movi | mov | load | add | sub | and | or | xor | not | shl | shr | jmp | jz | nop =>
      exact (sameMemory_effect (fun _ _ => Instr.noConfusion) s).2 a

end Sys2Proof.Machine
end

section
/-! PROOFS. What each instruction does (40_step_halt_nop.md to 46_jump.md): the state `exec` answers is its effect, the frame
is the tables' above, the flags are O38's, and what is left to each is the Word it writes. -/

namespace Sys2Proof.Machine

/-- Settles O24. -/
theorem moviLoadsZeroExtendedImmediate : Obligations.MoviLoadsZeroExtendedImmediate := by
  intro d imm s
  have hexec := exec_eq_effect (.movi d imm) s
  obtain ⟨hflags, hn⟩ := flagsAreWrittenByProducersOnly _ _ _ hexec
  have hword : readReg (effect (.movi d imm) s) d = immediateOperand imm := readReg_writeResult_self ..
  exact ⟨_, hexec, (congrArg BitVec.toNat hword).trans (immediateOperand_toNat imm), hflags, hn,
    onlyRegAndFlags_effect rfl s⟩

/-- Settles O25. -/
theorem movCopiesRegister : Obligations.MovCopiesRegister := by
  intro d r s
  have hexec := exec_eq_effect (.mov d r) s
  have hflags := flagsAreWrittenByProducersOnly _ _ _ hexec
  have hword : readReg (effect (.mov d r) s) d = readReg s r := readReg_writeResult_self ..
  exact ⟨_, hexec, hword, hword ▸ hflags, onlyRegAndFlags_effect rfl s⟩

/-- Settles O26: the Word is what the Bus reads at the effective address, the cell in bounds and 0 out of bounds. -/
theorem loadReadsAddressedCell : Obligations.LoadReadsAddressedCell := by
  intro d r s
  have hexec := exec_eq_effect (.load d r) s
  have hword : readReg (effect (.load d r) s) d = memRead s (effectiveAddress s r) := readReg_writeResult_self ..
  exact ⟨_, hexec, fun hin => hword.trans (memRead_of_inBounds hin),
    fun hout => hword.trans (memRead_of_not_inBounds hout), flagsAreWrittenByProducersOnly _ _ _ hexec,
    onlyRegAndFlags_effect rfl s⟩

/-- Settles O27: the effect is one Bus write, which reads back in bounds and is dropped out of bounds. -/
theorem storeWritesAddressedCell : Obligations.StoreWritesAddressedCell := by
  intro d r s
  exact ⟨_, exec_eq_effect (.store d r) s, memRead_memWrite_self _, fun hout => memWrite_of_not_inBounds hout _,
    fun _ hne => memRead_memWrite_of_ne s _ hne, rfl, sameRegs_effect rfl s, effect_flags rfl s, memWrite_pc ..,
    memWrite_halted .., memWrite_memorySize ..⟩

/-- Settles O28. -/
theorem addGivesSumAndCarryOut : Obligations.AddGivesSumAndCarryOut := by
  intro d r s
  have hexec := exec_eq_effect (.add d r) s
  have hword : readReg (effect (.add d r) s) d = readReg s d + readReg s r := readReg_writeResult_self ..
  exact ⟨_, hexec, (congrArg BitVec.toNat hword).trans (BitVec.toNat_add ..), flagsAreWrittenByProducersOnly _ _ _ hexec,
    onlyRegAndFlags_effect rfl s⟩

/-- A difference modulo 2^16, with the borrowed 65536 added before the subtraction. -/
theorem sub_toNat (a b : Word) : (a - b).toNat = (a.toNat + 65536 - b.toNat) % 65536 := by
  have hb : b.toNat < 65536 := b.isLt
  rw [BitVec.toNat_sub]
  congr 1
  omega

theorem sub_toNat_eq_zero_iff {a b : Word} : (a - b).toNat = 0 ↔ a = b := by
  have ha : a.toNat < 65536 := a.isLt
  have hb : b.toNat < 65536 := b.isLt
  rw [sub_toNat, ← BitVec.toNat_inj]
  omega

/-- Settles O29: the flags' Z is that of the difference, which is 0 exactly for equal operands. -/
theorem subGivesDifferenceAndNoBorrow : Obligations.SubGivesDifferenceAndNoBorrow := by
  intro d r s
  have hexec := exec_eq_effect (.sub d r) s
  have hflags := flagsAreWrittenByProducersOnly _ _ _ hexec
  have hword : readReg (effect (.sub d r) s) d = readReg s d - readReg s r := readReg_writeResult_self ..
  have hzero : (effect (.sub d r) s).flags.z = true ↔ readReg s d = readReg s r := by
    rw [hflags.1, hword, sub_toNat_eq_zero_iff]
  exact ⟨_, hexec, (congrArg BitVec.toNat hword).trans (sub_toNat ..), hflags, hzero, onlyRegAndFlags_effect rfl s⟩

/-- Settles O30: each result is the bit vector operation, read bit by bit. -/
theorem logicWorksBitByBit : Obligations.LogicWorksBitByBit := by
  intro d r s
  have hflags := fun i => flagsAreWrittenByProducersOnly i s _ (exec_eq_effect i s)
  refine ⟨⟨_, exec_eq_effect .., onlyRegAndFlags_effect rfl s, hflags (.and d r), fun k _ => ?and⟩,
    ⟨_, exec_eq_effect .., onlyRegAndFlags_effect rfl s, hflags (.or d r), fun k _ => ?or⟩,
    ⟨_, exec_eq_effect .., onlyRegAndFlags_effect rfl s, hflags (.xor d r), fun k _ => ?xor⟩,
    ⟨_, exec_eq_effect .., onlyRegAndFlags_effect rfl s, hflags (.not d r), fun k hk => ?not⟩⟩
  case and => rw [effect, readReg_writeResult_self, BitVec.getLsbD_and]; rfl
  case or => rw [effect, readReg_writeResult_self, BitVec.getLsbD_or]; rfl
  case xor => rw [effect, readReg_writeResult_self, BitVec.getLsbD_xor]; rfl
  case not => rw [effect, readReg_writeResult_self, BitVec.getLsbD_not, decide_eq_true hk]; rfl

/-- Settles O31. -/
theorem shlShiftsLeftByOne : Obligations.ShlShiftsLeftByOne := by
  intro d s
  have hexec := exec_eq_effect (.shl d) s
  have hword : readReg (effect (.shl d) s) d = readReg s d <<< 1 := readReg_writeResult_self ..
  exact ⟨_, hexec, (congrArg BitVec.toNat hword).trans (shiftLeft_one_toNat _), flagsAreWrittenByProducersOnly _ _ _ hexec,
    onlyRegAndFlags_effect rfl s⟩

/-- Settles O32. -/
theorem shrShiftsRightByOne : Obligations.ShrShiftsRightByOne := by
  intro d s
  have hexec := exec_eq_effect (.shr d) s
  obtain ⟨hflags, hn⟩ := flagsAreWrittenByProducersOnly _ _ _ hexec
  have hword : readReg (effect (.shr d) s) d = readReg s d >>> 1 := readReg_writeResult_self ..
  exact ⟨_, hexec, (congrArg BitVec.toNat hword).trans (shiftRight_one_toNat _), hn, hflags,
    onlyRegAndFlags_effect rfl s⟩

/-- Settles O33. -/
theorem jmpLoadsPcFromRegister : Obligations.JmpLoadsPcFromRegister := by
  intro r s
  exact ⟨_, exec_eq_effect (.jmp r) s, setPc_pc .., sameRegs_effect rfl s,
    sameMemory_effect (fun _ _ => Instr.noConfusion) s, effect_flags rfl s, setPc_halted ..⟩

/-- Where a JZ leaves pc. -/
theorem effect_jz_pc (r : RegIndex) (s : State) :
    (effect (.jz r) s).pc = if s.flags.z then readReg s r else s.pc := by
  rcases effect_jz_cases r s with ⟨hz, heff⟩ | ⟨hz, heff⟩
  · rw [heff, hz]; rfl
  · rw [heff, hz]; rfl

/-- Settles O34. -/
theorem jzJumpsExactlyWhenZeroIsSet : Obligations.JzJumpsExactlyWhenZeroIsSet := by
  intro r s
  have hpc := effect_jz_pc r s
  exact ⟨_, exec_eq_effect (.jz r) s, fun hz => hpc.trans (if_pos hz),
    fun hz => hpc.trans (if_neg (Bool.eq_false_iff.mp hz)),
    sameRegs_effect rfl s, sameMemory_effect (fun _ _ => Instr.noConfusion) s, effect_flags rfl s,
    effect_halted_of_ne_halt Instr.noConfusion s⟩

/-- Settles O35. -/
theorem haltSetsHaltedNopDoesNothing : Obligations.HaltSetsHaltedNopDoesNothing := by
  intro s
  exact ⟨⟨_, exec_eq_effect .halt s, setHalted_halted s, sameRegs_effect rfl s,
    sameMemory_effect (fun _ _ => Instr.noConfusion) s, effect_flags rfl s, setHalted_pc s⟩, exec_eq_effect .nop s⟩

/-! ### Two corner cases of the arithmetic (43_add_sub.md, 45_shift.md) -/

theorem shiftLeft_one_eq_add_self (a : Word) : a <<< 1 = a + a := by
  apply BitVec.eq_of_toNat_eq
  rw [shiftLeft_one_toNat, BitVec.toNat_add, Nat.two_mul]

/-- The bit a shift left drops is the carry out of the doubling. -/
theorem shlCarry_eq_addCarry_self (a : Word) : shlCarry a = addCarry a a := by
  rw [shlCarry, addCarry, BitVec.msb_eq_decide]
  congr 1
  rw [eq_iff_iff]
  omega

/-- Settles O43: the result and the carry of the shift are those of the doubling. -/
theorem shlEqualsAddToItself : Obligations.ShlEqualsAddToItself := by
  intro d s
  rw [exec_eq_effect, exec_eq_effect, effect, effect, shiftLeft_one_eq_add_self, shlCarry_eq_addCarry_self]

/-- The complement of a Word, as the number it adds in a subtraction. -/
theorem not_toNat (b : Word) : (~~~ b).toNat = 65535 - b.toNat :=
  BitVec.toNat_not

/-- Settles O44: `~b` is 65535 - b, so the complement sum is a - b + 65536, which reaches 65536 exactly without a borrow. -/
theorem subCarryIsCarryOutOfComplementSum : Obligations.SubCarryIsCarryOutOfComplementSum := by
  intro d r s t hexec
  obtain ⟨t', hexec', hword, ⟨-, -, hcarry⟩, -⟩ := subGivesDifferenceAndNoBorrow d r s
  obtain rfl : t = t' := Host.Outcome.next.inj (hexec.symm.trans hexec')
  have hb : (readReg s r).toNat < 65536 := (readReg s r).isLt
  rw [hcarry, hword, not_toNat]
  omega

end Sys2Proof.Machine
end

section
/-! PROOFS. What steers the machine: pc (10_state.md section 2) and the readers of the flags (10_state.md section 3). -/

namespace Sys2Proof.Machine

/-- Only the two jumps write pc. -/
theorem effect_pc_of_no_jump {i : Instr} (hjmp : ∀ r, i ≠ .jmp r) (hjz : ∀ r, i ≠ .jz r) (s : State) :
    (effect i s).pc = s.pc := by
  cases i with
  | halt => exact setHalted_pc s
  | movi | mov | load | add | sub | and | or | xor | not | shl | shr => exact writeResult_pc ..
  | store => exact memWrite_pc ..
  | jmp r => exact absurd rfl (hjmp r)
  | jz r => exact absurd rfl (hjz r)
  | nop => rfl

/-- Settles O40: the effect runs with pc advanced, and only JMP and JZ write pc after that. -/
theorem pcIsAdvancedOrJumpTarget : Obligations.PcIsAdvancedOrJumpTarget := by
  intro s t hstep
  obtain rfl := step_next_iff.mp hstep
  split
  · next hs => rw [nextState_of_halted hs]
  · next hs =>
    rw [nextState_of_not_halted (eq_false_of_ne_true hs), fetch]
    split
    · next r hi => rw [hi]; exact setPc_pc ..
    · next r hi => rw [hi, effect_jz_pc]; rfl
    · next hjmp hjz => exact effect_pc_of_no_jump hjmp hjz (advancePc s)

/-- A producer's effect reads no flag and overwrites all three. -/
theorem effect_with_flags_of_destination {i : Instr} {d : RegIndex} (hi : i.destination = some d) (s : State)
    (f : Flags) : effect i { s with flags := f } = effect i s := by
  cases i with
  | halt | store | jmp | jz | nop => exact nomatch hi
  | movi | mov | load | add | sub | and | or | xor | not | shl | shr => rfl

/-- The effect of any other instruction carries the flags along; of these only JZ reads one, Z. -/
theorem effect_with_flags_of_no_destination {i : Instr} (hi : i.destination = none) (s : State) {f : Flags}
    (hz : (∃ r, i = .jz r) → f.z = s.flags.z) :
    effect i { s with flags := f } = { effect i s with flags := f } := by
  cases i with
  | halt | store | jmp | nop => rfl
  | jz r =>
    rw [effect, effect, hz ⟨r, rfl⟩]
    split <;> rfl
  | movi | mov | load | add | sub | and | or | xor | not | shl | shr => exact nomatch hi

/-- Settles O42. -/
theorem zeroFlagIsReadByJzOnly : Obligations.ZeroFlagIsReadByJzOnly := by
  intro i s f
  refine ⟨effect i s, exec_eq_effect i s, ?_⟩
  simp only [exec_next_iff]
  cases i with
  | halt | store | jmp | nop =>
    exact ⟨effect_flags rfl s, (effect_with_flags_of_no_destination rfl s fun ⟨_, h⟩ => Instr.noConfusion h).symm⟩
  | jz => exact fun hz => (effect_with_flags_of_no_destination rfl s fun _ => hz).symm
  | movi | mov | load | add | sub | and | or | xor | not | shl | shr =>
    exact (effect_with_flags_of_destination rfl s f).symm

/-- `t` is `s` but for C and N. -/
def AgreeButCarryNegative (s t : State) : Prop :=
  ∃ f : Flags, f.z = s.flags.z ∧ t = { s with flags := f }

theorem AgreeButCarryNegative.halted_eq {s t : State} (h : AgreeButCarryNegative s t) : t.halted = s.halted := by
  obtain ⟨f, -, rfl⟩ := h
  rfl

theorem AgreeButCarryNegative.fetch_eq {s t : State} (h : AgreeButCarryNegative s t) : fetch t = fetch s := by
  obtain ⟨f, -, rfl⟩ := h
  rfl

theorem AgreeButCarryNegative.after_advance {s t : State} (h : AgreeButCarryNegative s t) :
    AgreeButCarryNegative (advancePc s) (advancePc t) := by
  obtain ⟨f, hz, rfl⟩ := h
  exact ⟨f, hz, rfl⟩

theorem AgreeButCarryNegative.after_effect {s t : State} (h : AgreeButCarryNegative s t) (i : Instr) :
    AgreeButCarryNegative (effect i s) (effect i t) := by
  obtain ⟨f, hz, rfl⟩ := h
  cases hi : i.destination with
  | some d => exact ⟨(effect i s).flags, rfl, effect_with_flags_of_destination hi s f⟩
  | none =>
    have hz' : f.z = (effect i s).flags.z := by rw [hz, effect_flags hi]
    exact ⟨f, hz', effect_with_flags_of_no_destination hi s fun _ => hz⟩

theorem AgreeButCarryNegative.after_step {s t : State} (h : AgreeButCarryNegative s t) :
    AgreeButCarryNegative (nextState s) (nextState t) := by
  cases hs : s.halted with
  | true =>
    rw [nextState_of_halted hs, nextState_of_halted (h.halted_eq.trans hs)]
    exact h
  | false =>
    rw [nextState_of_not_halted hs, nextState_of_not_halted (h.halted_eq.trans hs), h.fetch_eq]
    exact h.after_advance.after_effect (decode (fetch s))

theorem AgreeButCarryNegative.after_run {s t : State} (h : AgreeButCarryNegative s t) (k : Nat) :
    AgreeButCarryNegative (nextState^[k] s) (nextState^[k] t) := by
  induction k generalizing s t with
  | zero => exact h
  | succ k ih => exact ih h.after_step

/-- Settles O41: the relation "equal but for C and N" is kept by every step, so by every run. -/
theorem carryAndNegativeSteerNothing : Obligations.CarryAndNegativeSteerNothing := by
  intro s t hregs hpc hz hhalted hmem hsize k
  have hagree : AgreeButCarryNegative s t := by
    refine ⟨t.flags, hz, ?_⟩
    rw [← hregs, ← hpc, ← hhalted, ← hmem, ← hsize]
  obtain ⟨f, hz', heq⟩ := hagree.after_run k
  refine ⟨nextState^[k] s, nextState^[k] t, run_eq_iterate k s, run_eq_iterate k t, ?_⟩
  rw [heq]
  exact ⟨rfl, rfl, hz', rfl, rfl, rfl⟩

end Sys2Proof.Machine
end

section
/-! PROOFS. The step's fetch, and what it runs (40_step_halt_nop.md section 2, 70_reset_and_hazards.md). -/

namespace Sys2Proof.Machine

/-- Settles O5: the fetch is the Bus read at pc, and the advance is the pc write. -/
theorem stepRunsDecodedInstruction : Obligations.StepRunsDecodedInstruction := by
  intro s i hs hi
  have hstep : step s = exec (decode (memRead s s.pc)) (setPc s (s.pc + 1)) := if_neg (Bool.eq_false_iff.mp hs)
  rw [hstep, hi]

/-- Settles O3: construction and `reset()` leave pc at 0 and the machine running. -/
theorem firstStepAfterResetRunsAddressZero : Obligations.FirstStepAfterResetRunsAddressZero :=
  ⟨fun s => stepRunsDecodedInstruction (hostReset s) _ (hostReset_halted s) rfl,
    fun n => stepRunsDecodedInstruction (State.constructed n) _ (constructed_halted n) rfl⟩

/-- Settles O7: a reset event is `reset()`, whatever comes with it, and the step after that is O3's. -/
theorem resetEventRestartsTheProgram : Obligations.ResetEventRestartsTheProgram := by
  intro s
  refine ⟨rfl, rfl, fun stepToo => ⟨hostReset s, rfl, readReg_hostReset s, hostReset_pc s, hostReset_flags s,
    hostReset_halted s, ?memory, ?restart⟩⟩
  case memory => exact sameMemory_of_mem_eq (hostReset_mem s) (hostReset_memorySize s)
  case restart => exact firstStepAfterResetRunsAddressZero.1 s

/-- The zero word is HALT (D2, log 3). -/
theorem decode_zero : decode 0 = .halt := by decide

/-- Settles O48: the effect of HALT on the advanced state. -/
theorem zeroWordHalts : Obligations.ZeroWordHalts := by
  intro s hs hzero
  have hdecode : decode (memRead s s.pc) = .halt := by rw [hzero, decode_zero]
  rw [stepRunsDecodedInstruction s .halt hs hdecode]
  rfl

/-- Settles O47: out of bounds the fetch reads the zero word. -/
theorem fetchBeyondMemoryHalts : Obligations.FetchBeyondMemoryHalts := by
  intro s hs hout
  exact zeroWordHalts s hs (memRead_of_not_inBounds hout)

/-- Settles O45: the STORE writes the cell that the advanced pc fetches next. -/
theorem storeIsSeenByNextFetch : Obligations.StoreIsSeenByNextFetch := by
  intro s d r hs hi haddress hin
  obtain ⟨t, hexec, hwrites, -, -, -, -, -, hpc, hhalted, -⟩ := storeWritesAddressedCell d r (setPc s (s.pc + 1))
  have heffective : effectiveAddress (setPc s (s.pc + 1)) r = s.pc + 1 := haddress
  rw [heffective] at hwrites
  rw [setPc_pc] at hpc
  have hstored : memRead t t.pc = readReg s d := by
    rw [hpc]
    exact hwrites hin
  refine ⟨t, (stepRunsDecodedInstruction s _ hs hi).trans hexec, hpc, hstored, ?next⟩
  case next =>
    have htwo : t.pc + 1 = s.pc + 2 := by rw [hpc, BitVec.add_assoc]; rfl
    rw [stepRunsDecodedInstruction t _ (hhalted.trans hs) rfl, hstored, htwo]

/-- Settles O46: the LOAD reads through the register the STORE wrote through, which the STORE leaves. -/
theorem loadReturnsTheStoredWord : Obligations.LoadReturnsTheStoredWord := by
  intro s d r e
  obtain ⟨t, hstore, hin, hout, -, -, hregs, -, -, -, hsize⟩ := storeWritesAddressedCell d r s
  obtain ⟨u, hload, -, hzero, -⟩ := loadReadsAddressedCell e r t
  have haddress : effectiveAddress t r = readReg s r := hregs r
  have hbounds : inBounds t (effectiveAddress t r) ↔ inBounds s (readReg s r) := by
    rw [haddress, inBounds, inBounds, hsize]
  have hword : readReg u e = memRead t (readReg s r) := by
    rw [exec_next_iff.mp hload, ← haddress]
    exact readReg_writeResult_self ..
  exact ⟨t, u, hstore, hload, fun h => hword.trans (hin h), fun h => hzero fun h' => h (hbounds.mp h')⟩

theorem withFetchWord_toNat (s : State) (w : Word) : s.withFetchWord 16 w.toNat = placeAtPc s w := by
  rw [State.withFetchWord, Nat.mod_eq_of_lt w.isLt, BitVec.ofNat_toNat, BitVec.setWidth_eq]

/-- The placed Word is in bounds, because the placing makes room for it, so the fetch reads it. -/
theorem memRead_placeAtPc (s : State) (w : Word) : memRead (placeAtPc s w) s.pc = w := by
  have hroom : inBounds (placeAtPc s w) s.pc := by
    rw [inBounds, placeAtPc_memorySize]
    omega
  rw [memRead_of_inBounds hroom, placeAtPc_mem, Memory.cell_put, if_pos rfl]

/-- Settles O52. -/
theorem placedWordIsRunNext : Obligations.PlacedWordIsRunNext := by
  intro s w
  rw [withFetchWord_toNat]
  refine ⟨?runs, sameRegs_of_regs_eq (placeAtPc_regs s w), placeAtPc_flags s w, placeAtPc_pc s w, fun a hne => ?cells,
    fun hin => ?size⟩
  case runs =>
    exact stepRunsDecodedInstruction (placeAtPc s w) _ (placeAtPc_halted s w)
      (congrArg decode (memRead_placeAtPc s w))
  case cells => rw [placeAtPc_mem, Memory.cell_put, if_neg hne]
  case size =>
    rw [placeAtPc_memorySize]
    exact max_eq_left hin

end Sys2Proof.Machine
end

section
/-! PROOFS. `run()` under a bound (40_step_halt_nop.md R96): it answers the first halted iterate of the step. -/

namespace Sys2Proof.Machine

theorem runWithin_of_halted {s : State} (h : s.halted = true) (k : Nat) : runWithin k s = some (s, 0) := by
  unfold runWithin
  exact if_pos h

theorem runWithin_zero {s : State} (h : s.halted = false) : runWithin 0 s = none := by
  unfold runWithin
  exact if_neg (Bool.eq_false_iff.mp h)

theorem runWithin_succ {s : State} (h : s.halted = false) (k : Nat) :
    runWithin (k + 1) s = (runWithin k (nextState s)).map (fun r => (r.1, r.2 + 1)) := by
  conv_lhs => unfold runWithin
  rw [if_neg (Bool.eq_false_iff.mp h), step_eq_nextState]

/-- Where an answer comes from: the halted state itself, or the answer for its next state, one step on. -/
theorem runWithin_eq_some {k n : Nat} {s t : State} (h : runWithin k s = some (t, n)) :
    (s.halted = true ∧ t = s ∧ n = 0) ∨
    (s.halted = false ∧ ∃ k' n', k = k' + 1 ∧ n = n' + 1 ∧ runWithin k' (nextState s) = some (t, n')) := by
  cases hs : s.halted with
  | true =>
    rw [runWithin_of_halted hs, Option.some.injEq, Prod.mk.injEq] at h
    exact .inl ⟨rfl, h.1.symm, h.2.symm⟩
  | false =>
    cases k with
    | zero => rw [runWithin_zero hs] at h; exact nomatch h
    | succ k' =>
      rw [runWithin_succ hs, Option.map_eq_some_iff] at h
      obtain ⟨⟨u, n'⟩, hrest, heq⟩ := h
      obtain ⟨rfl, rfl⟩ := Prod.mk.inj heq
      exact .inr ⟨rfl, k', n', rfl, rfl, hrest⟩

/-- What an answer says: the count is within the bound, the state is that iterate, halted, and none before it was. -/
theorem runWithin_sound {k n : Nat} {s t : State} (h : runWithin k s = some (t, n)) :
    n ≤ k ∧ t.halted = true ∧ t = nextState^[n] s ∧ ∀ j < n, (nextState^[j] s).halted = false := by
  induction n generalizing k s with
  | zero =>
    rcases runWithin_eq_some h with ⟨hs, rfl, -⟩ | ⟨-, -, n', -, hn, -⟩
    · exact ⟨k.zero_le, hs, rfl, fun j hj => absurd hj j.not_lt_zero⟩
    · exact nomatch hn
  | succ n ih =>
    rcases runWithin_eq_some h with ⟨-, -, hn⟩ | ⟨hs, k', n', rfl, hn, hrest⟩
    · exact nomatch hn
    · obtain rfl := Nat.succ.inj hn
      obtain ⟨hle, hhalted, hstate, hbefore⟩ := ih hrest
      refine ⟨Nat.succ_le_succ hle, hhalted, hstate, fun j hj => ?before⟩
      case before =>
        cases j with
        | zero => exact hs
        | succ j => exact hbefore j (Nat.lt_of_succ_lt_succ hj)

/-- A halted iterate within the bound is answered: the iterates stay at the first halted one. -/
theorem runWithin_complete {k j : Nat} {s : State} (hj : j ≤ k) (hhalted : (nextState^[j] s).halted = true) :
    ∃ n, runWithin k s = some (nextState^[j] s, n) := by
  induction k generalizing s j with
  | zero =>
    obtain rfl := Nat.le_zero.mp hj
    exact ⟨0, runWithin_of_halted hhalted 0⟩
  | succ k ih =>
    cases hs : s.halted with
    | true =>
      rw [Function.iterate_fixed (nextState_of_halted hs) j]
      exact ⟨0, runWithin_of_halted hs (k + 1)⟩
    | false =>
      cases j with
      | zero => exact absurd (hs.symm.trans hhalted) Bool.false_ne_true
      | succ j =>
        obtain ⟨n, hrest⟩ := ih (Nat.le_of_succ_le_succ hj) hhalted
        exact ⟨n + 1, by rw [runWithin_succ hs, hrest]; rfl⟩

/-- Settles O50, in both directions. -/
theorem runCountsStepsToTheFirstHaltedState : Obligations.RunCountsStepsToTheFirstHaltedState := by
  intro k s
  refine ⟨fun t n hrun => ?sound, fun j u hj hrun hhalted => ?complete⟩
  case sound =>
    obtain ⟨hle, hhalted, rfl, hbefore⟩ := runWithin_sound hrun
    exact ⟨hle, hhalted, run_eq_iterate n s, fun j hj => ⟨_, run_eq_iterate j s, hbefore j hj⟩⟩
  case complete =>
    obtain rfl := Host.Outcome.next.inj ((run_eq_iterate j s).symm.trans hrun)
    exact runWithin_complete hj hhalted

end Sys2Proof.Machine
end

section
/-! PROOFS. The packed flag Word (10_state.md R18; the layout is D4, log 4). -/

namespace Sys2Proof.Machine

/-- A bit placed at a position of a Word stands there and nowhere else. -/
theorem getLsbD_bitAt (b : Bool) {p : Nat} (hp : p < 16) (k : Nat) :
    (bitAt b p).getLsbD k = (decide (k = p) && b) := by
  rw [bitAt, BitVec.getLsbD_shiftLeft, BitVec.getLsbD_setWidth, BitVec.getLsbD_ofBool]
  cases b with
  | false => simp only [Bool.and_false]
  | true =>
    simp only [Bool.and_true, ← decide_not, ← Bool.decide_and, decide_eq_decide]
    omega

/-- Settles O51. -/
theorem flagWordPacksZCN : Obligations.FlagWordPacksZCN := by
  intro s k
  rw [hostFlags, Flags.pack, BitVec.getLsbD_or, BitVec.getLsbD_or, getLsbD_bitAt _ (by decide),
    getLsbD_bitAt _ (by decide), getLsbD_bitAt _ (by decide)]
  simp only [flagLayout]
  split_ifs with hz hc hn
  · simp [hz]
  · simp [hc]
  · simp [hn]
  · simp [hz, hc, hn]

end Sys2Proof.Machine
end

section
/-! PROOFS. The fields of an encoded Word (30_encoding.md sections 1 to 3). Every encode function is the disjunction of
masked numbers shifted to their fields, and every decode function is a slice, so the laws of section 7 are facts about one
field each. -/

namespace Sys2Proof

/-- The low `width` bits of a number in the field that begins at bit `lo`. -/
def fieldOf (width lo n : Nat) : Word := BitVec.ofNat 16 (n % 2 ^ width) <<< lo

theorem getLsbD_fieldOf {width lo : Nat} (hfit : lo + width ≤ 16) (n k : Nat) :
    (fieldOf width lo n).getLsbD k = (decide (lo ≤ k ∧ k < lo + width) && n.testBit (k - lo)) := by
  rw [fieldOf, BitVec.getLsbD_shiftLeft, BitVec.getLsbD_ofNat, Nat.testBit_mod_two_pow]
  cases n.testBit (k - lo) with
  | false => simp only [Bool.and_false]
  | true =>
    simp only [Bool.and_true, ← decide_not, ← Bool.decide_and, decide_eq_decide]
    omega

theorem fieldOf_zero (width lo : Nat) : fieldOf width lo 0 = 0#16 := by
  rw [fieldOf, Nat.zero_mod]
  exact BitVec.zero_shiftLeft lo

/-- A field has no room for the bits above its width. -/
theorem fieldOf_mod {width m : Nat} (hm : m = 2 ^ width) (lo n : Nat) :
    fieldOf width lo (n % m) = fieldOf width lo n := by
  rw [fieldOf, fieldOf, hm, Nat.mod_mod]

/-- Reading a field back from where it was put. -/
theorem extractLsb'_fieldOf {width lo : Nat} (hfit : lo + width ≤ 16) (n : Nat) :
    (fieldOf width lo n).extractLsb' lo width = BitVec.ofNat width n := by
  apply BitVec.eq_of_getLsbD_eq
  intro k hk
  rw [BitVec.getLsbD_extractLsb', getLsbD_fieldOf hfit, BitVec.getLsbD_ofNat, Nat.add_sub_cancel_left,
    decide_eq_true hk, decide_eq_true ⟨Nat.le_add_right lo k, Nat.add_lt_add_left hk lo⟩, Bool.true_and]

/-- Nothing of a field is read from bits that it does not cover. -/
theorem extractLsb'_fieldOf_of_disjoint {width lo width' lo' : Nat} (hfit : lo + width ≤ 16)
    (hdisjoint : lo' + width' ≤ lo ∨ lo + width ≤ lo') (n : Nat) :
    (fieldOf width lo n).extractLsb' lo' width' = 0#width' := by
  apply BitVec.eq_of_getLsbD_eq
  intro k hk
  have hnot : ¬ (lo ≤ lo' + k ∧ lo' + k < lo + width) := by omega
  rw [BitVec.getLsbD_extractLsb', getLsbD_fieldOf hfit, decide_eq_false hnot, Bool.false_and, Bool.and_false,
    BitVec.getLsbD_zero]

/-- A slice of a Word put back in its field is the Word under the mask of the field. -/
theorem fieldOf_extractLsb' {width lo : Nat} {mask : Word} (hfit : lo + width ≤ 16)
    (hmask : ∀ k < 16, mask.getLsbD k = decide (lo ≤ k ∧ k < lo + width)) (w : Word) :
    fieldOf width lo (w.extractLsb' lo width).toNat = w &&& mask := by
  apply BitVec.eq_of_getLsbD_eq
  intro k hk
  rw [getLsbD_fieldOf hfit, BitVec.testBit_toNat, BitVec.getLsbD_extractLsb', BitVec.getLsbD_and, hmask k hk]
  by_cases hmem : lo ≤ k ∧ k < lo + width
  · have hwidth : k - lo < width := by omega
    rw [decide_eq_true hmem, decide_eq_true hwidth, Nat.add_sub_cancel' hmem.1, Bool.true_and, Bool.true_and,
      Bool.and_true]
  · rw [decide_eq_false hmem, Bool.false_and, Bool.and_false]

/-! ### The encode functions as fields -/

/-- A mask that picks the lowest `width` bits takes the number modulo `2 ^ width`. -/
theorem shiftLeft_masked_eq_fieldOf {width : Nat} {mask : Word} (hmask : ∀ k < 16, mask.getLsbD k = decide (k < width))
    (lo n : Nat) : (BitVec.ofNat 16 n &&& mask) <<< lo = fieldOf width lo n := by
  have hmasked : BitVec.ofNat 16 n &&& mask = BitVec.ofNat 16 (n % 2 ^ width) := by
    apply BitVec.eq_of_getLsbD_eq
    intro k hk
    rw [BitVec.getLsbD_and, hmask k hk, BitVec.getLsbD_ofNat, BitVec.getLsbD_ofNat, Nat.testBit_mod_two_pow,
      decide_eq_true hk, Bool.true_and, Bool.true_and, Bool.and_comm]
  rw [hmasked, fieldOf]

theorem encodeRegisterPair_eq (op rd rs : Nat) :
    encodeRegisterPair op rd rs = fieldOf 4 12 op ||| fieldOf 3 9 rd ||| fieldOf 3 6 rs := by
  rw [encodeRegisterPair, shiftLeft_masked_eq_fieldOf (width := 4) (by decide),
    shiftLeft_masked_eq_fieldOf (width := 3) (by decide), shiftLeft_masked_eq_fieldOf (width := 3) (by decide)]
  rfl

theorem encodeImmediate_eq (rd imm : Nat) :
    encodeImmediate rd imm = fieldOf 4 12 1 ||| fieldOf 3 9 rd ||| fieldOf 9 0 imm := by
  rw [encodeImmediate, shiftLeft_masked_eq_fieldOf (width := 3) (by decide),
    shiftLeft_masked_eq_fieldOf (width := 9) (by decide)]
  rfl

/-- Settles O21: each field takes its own argument modulo its size. -/
theorem codecMasksItsArguments : Obligations.CodecMasksItsArguments := by
  constructor
  · intro op rd rs
    rw [encodeRegisterPair_eq, encodeRegisterPair_eq, fieldOf_mod (m := 16) rfl, fieldOf_mod (m := 8) rfl,
      fieldOf_mod (m := 8) rfl]
  · intro rd imm
    rw [encodeImmediate_eq, encodeImmediate_eq, fieldOf_mod (m := 8) rfl, fieldOf_mod (m := 512) rfl]

/-! ### Decoding what was encoded -/

theorem decodeOpcode_encodeRegisterPair (op rd rs : Nat) :
    decodeOpcode (encodeRegisterPair op rd rs) = BitVec.ofNat 4 op := by
  simp [encodeRegisterPair_eq, decodeOpcode, fieldLayout, BitVec.extractLsb'_or, extractLsb'_fieldOf,
    extractLsb'_fieldOf_of_disjoint]

theorem decodeRd_encodeRegisterPair (op rd rs : Nat) : (decodeRd (encodeRegisterPair op rd rs)).val = rd % 8 := by
  simp [encodeRegisterPair_eq, decodeRd, fieldLayout, BitVec.extractLsb'_or, extractLsb'_fieldOf,
    extractLsb'_fieldOf_of_disjoint]

theorem decodeRs_encodeRegisterPair (op rd rs : Nat) : (decodeRs (encodeRegisterPair op rd rs)).val = rs % 8 := by
  simp [encodeRegisterPair_eq, decodeRs, fieldLayout, BitVec.extractLsb'_or, extractLsb'_fieldOf,
    extractLsb'_fieldOf_of_disjoint]

theorem decodeOpcode_encodeImmediate (rd imm : Nat) : decodeOpcode (encodeImmediate rd imm) = 1 := by
  simp [encodeImmediate_eq, decodeOpcode, fieldLayout, BitVec.extractLsb'_or, extractLsb'_fieldOf,
    extractLsb'_fieldOf_of_disjoint]

theorem decodeRd_encodeImmediate (rd imm : Nat) : (decodeRd (encodeImmediate rd imm)).val = rd % 8 := by
  simp [encodeImmediate_eq, decodeRd, fieldLayout, BitVec.extractLsb'_or, extractLsb'_fieldOf,
    extractLsb'_fieldOf_of_disjoint]

theorem decodeImm9_encodeImmediate (rd imm : Nat) : (decodeImm9 (encodeImmediate rd imm)).toNat = imm % 512 := by
  simp [encodeImmediate_eq, decodeImm9, fieldLayout, BitVec.extractLsb'_or, extractLsb'_fieldOf,
    extractLsb'_fieldOf_of_disjoint]

/-! ### Encoding what was decoded -/

theorem fieldOf_decodeOpcode (w : Word) : fieldOf 4 12 (decodeOpcode w).toNat = w &&& 0xF000 :=
  fieldOf_extractLsb' (by decide) (by decide) w

theorem fieldOf_decodeRd (w : Word) : fieldOf 3 9 (decodeRd w).val = w &&& 0x0E00 :=
  fieldOf_extractLsb' (by decide) (by decide) w

theorem fieldOf_decodeRs (w : Word) : fieldOf 3 6 (decodeRs w).val = w &&& 0x01C0 :=
  fieldOf_extractLsb' (by decide) (by decide) w

theorem fieldOf_decodeImm9 (w : Word) : fieldOf 9 0 (decodeImm9 w).toNat = w &&& 0x01FF :=
  fieldOf_extractLsb' (by decide) (by decide) w

theorem encodeRegisterPair_decode (w : Word) :
    encodeRegisterPair (decodeOpcode w).toNat (decodeRd w).val (decodeRs w).val = w &&& 0xFFC0 := by
  rw [encodeRegisterPair_eq, fieldOf_decodeOpcode, fieldOf_decodeRd, fieldOf_decodeRs, ← BitVec.and_or_distrib_left,
    ← BitVec.and_or_distrib_left]
  rfl

theorem encodeRegisterPair_decode_rd (w : Word) :
    encodeRegisterPair (decodeOpcode w).toNat (decodeRd w).val 0 = w &&& 0xFE00 := by
  rw [encodeRegisterPair_eq, fieldOf_decodeOpcode, fieldOf_decodeRd, fieldOf_zero, BitVec.or_zero,
    ← BitVec.and_or_distrib_left]
  rfl

theorem encodeRegisterPair_decode_rs (w : Word) :
    encodeRegisterPair (decodeOpcode w).toNat 0 (decodeRs w).val = w &&& 0xF1C0 := by
  rw [encodeRegisterPair_eq, fieldOf_decodeOpcode, fieldOf_zero, fieldOf_decodeRs, BitVec.or_zero,
    ← BitVec.and_or_distrib_left]
  rfl

theorem encodeRegisterPair_decode_opcode (w : Word) :
    encodeRegisterPair (decodeOpcode w).toNat 0 0 = w &&& 0xF000 := by
  rw [encodeRegisterPair_eq, fieldOf_decodeOpcode, fieldOf_zero, fieldOf_zero, BitVec.or_zero, BitVec.or_zero]

theorem encodeImmediate_decode {w : Word} (h : decodeOpcode w = 1) :
    encodeImmediate (decodeRd w).val (decodeImm9 w).toNat = w := by
  have hopcode : fieldOf 4 12 1 = w &&& 0xF000 := by rw [← fieldOf_decodeOpcode, h]; rfl
  rw [encodeImmediate_eq, hopcode, fieldOf_decodeRd, fieldOf_decodeImm9, ← BitVec.and_or_distrib_left,
    ← BitVec.and_or_distrib_left]
  exact BitVec.and_allOnes

/-- A format RR word is its own re-encoding, so no bit stands below its fields. -/
theorem encodeRegisterPair_low_bits (op rd rs : Nat) : encodeRegisterPair op rd rs &&& 0x003F = 0 := by
  have hself : encodeRegisterPair op rd rs = encodeRegisterPair op rd rs &&& 0xFFC0 := by
    rw [← encodeRegisterPair_decode, decodeOpcode_encodeRegisterPair, decodeRd_encodeRegisterPair,
      decodeRs_encodeRegisterPair, BitVec.toNat_ofNat]
    exact codecMasksItsArguments.1 op rd rs
  rw [hself, BitVec.and_assoc]
  exact BitVec.and_zero

/-- Settles O20: the laws above, for arguments that the fields' moduli leave alone. -/
theorem codecLawsHoldInRange : Obligations.CodecLawsHoldInRange := by
  refine ⟨fun op rd rs hfits => ?registerPair, fun rd imm hfits => ?immediate, fun w hw => encodeImmediate_decode hw,
    encodeRegisterPair_decode⟩
  case registerPair =>
    simp only [CodecCall.wellFormed, opcodeFits, registerFits, Bool.and_eq_true, decide_eq_true_eq] at hfits
    obtain ⟨⟨hop, hrd⟩, hrs⟩ := hfits
    rw [decodeOpcode_encodeRegisterPair, decodeRd_encodeRegisterPair, decodeRs_encodeRegisterPair,
      BitVec.toNat_ofNat]
    exact ⟨Nat.mod_eq_of_lt hop, Nat.mod_eq_of_lt hrd, Nat.mod_eq_of_lt hrs, encodeRegisterPair_low_bits op rd rs⟩
  case immediate =>
    simp only [CodecCall.wellFormed, registerFits, imm9Fits, Bool.and_eq_true, decide_eq_true_eq] at hfits
    obtain ⟨hrd, himm⟩ := hfits
    rw [decodeOpcode_encodeImmediate, decodeRd_encodeImmediate, decodeImm9_encodeImmediate]
    exact ⟨rfl, Nat.mod_eq_of_lt hrd, Nat.mod_eq_of_lt himm⟩

end Sys2Proof
end

section
/-! PROOFS. The decoder against the encoder (30_encoding.md sections 4 to 7): the opcode field alone selects the row, and the
row selects the fields. -/

namespace Sys2Proof

/-- The instruction of an operation with the operands that a Word's fields give; each row takes those it uses. -/
def Opcode.withFields (op : Opcode) (rd rs : RegIndex) (imm : Imm9) : Instr :=
  match op with
  | .halt => .halt
  | .movi => .movi rd imm
  | .mov => .mov rd rs
  | .load => .load rd rs
  | .store => .store rd rs
  | .add => .add rd rs
  | .sub => .sub rd rs
  | .and => .and rd rs
  | .or => .or rd rs
  | .xor => .xor rd rs
  | .not => .not rd rs
  | .shl => .shl rd
  | .shr => .shr rd
  | .jmp => .jmp rs
  | .jz => .jz rs
  | .nop => .nop

@[simp] theorem opcode_withFields (op : Opcode) (rd rs : RegIndex) (imm : Imm9) :
    (op.withFields rd rs imm).opcode = op := by
  cases op <;> rfl

theorem operationOf_opcodeNumber (op : Opcode) : operationOf (opcodeNumber op) = some op := by
  cases op <;> decide

theorem opcodeNumber_injective : Function.Injective opcodeNumber := by
  intro a b hab
  have hsearch := operationOf_opcodeNumber a
  rw [hab, operationOf_opcodeNumber b] at hsearch
  exact (Option.some.inj hsearch).symm

/-- All sixteen opcode numbers are assigned (R62). -/
theorem exists_opcodeNumber_eq (n : BitVec 4) : ∃ op, opcodeNumber op = n := by
  have hall : ∀ n : BitVec 4, ∃ op ∈ Opcode.all, opcodeNumber op = n := by decide
  obtain ⟨op, -, hop⟩ := hall n
  exact ⟨op, hop⟩

theorem decode_eq_withFields {w : Word} {op : Opcode} (h : decodeOpcode w = opcodeNumber op) :
    decode w = op.withFields (decodeRd w) (decodeRs w) (decodeImm9 w) := by
  rw [decode, h, operationOf_opcodeNumber]
  cases op <;> rfl

theorem decode_opcode_iff {w : Word} {op : Opcode} : (decode w).opcode = op ↔ decodeOpcode w = opcodeNumber op := by
  obtain ⟨row, hrow⟩ := exists_opcodeNumber_eq (decodeOpcode w)
  rw [decode_eq_withFields hrow.symm, opcode_withFields, ← hrow, opcodeNumber_injective.eq_iff]

/-- The row of a format RR word, with the fields that were packed; only MOVI's row reads the immediate. -/
theorem decode_encodeRegisterPair {op : Opcode} (hop : op ≠ .movi) (rd rs : RegIndex) (imm : Imm9) :
    decode (encodeRegisterPair (opcodeNumber op).toNat rd.val rs.val) = op.withFields rd rs imm := by
  have hopcode : decodeOpcode (encodeRegisterPair (opcodeNumber op).toNat rd.val rs.val) = opcodeNumber op := by
    rw [decodeOpcode_encodeRegisterPair, BitVec.ofNat_toNat, BitVec.setWidth_eq]
  have hrd : decodeRd (encodeRegisterPair (opcodeNumber op).toNat rd.val rs.val) = rd := by
    rw [Fin.ext_iff, decodeRd_encodeRegisterPair, Nat.mod_eq_of_lt rd.isLt]
  have hrs : decodeRs (encodeRegisterPair (opcodeNumber op).toNat rd.val rs.val) = rs := by
    rw [Fin.ext_iff, decodeRs_encodeRegisterPair, Nat.mod_eq_of_lt rs.isLt]
  rw [decode_eq_withFields hopcode, hrd, hrs]
  cases op with
  | movi => exact absurd rfl hop
  | halt | mov | load | store | add | sub | and | or | xor | not | shl | shr | jmp | jz | nop => rfl

theorem decode_encodeImmediate (rd : RegIndex) (imm : Imm9) : decode (encodeImmediate rd.val imm.toNat) = .movi rd imm := by
  have hrd : decodeRd (encodeImmediate rd.val imm.toNat) = rd := by
    rw [Fin.ext_iff, decodeRd_encodeImmediate, Nat.mod_eq_of_lt rd.isLt]
  have himm : decodeImm9 (encodeImmediate rd.val imm.toNat) = imm := by
    apply BitVec.eq_of_toNat_eq
    rw [decodeImm9_encodeImmediate, Nat.mod_eq_of_lt imm.isLt]
  rw [decode_eq_withFields (op := .movi) (decodeOpcode_encodeImmediate _ _), hrd, himm]
  rfl

/-- Settles O17: a MOVI word gives its two fields back, and a format RR word the fields that its row reads. -/
theorem decodeOfEncodeIsIdentity : Obligations.DecodeOfEncodeIsIdentity := by
  intro i _
  cases i with
  | movi rd imm => exact decode_encodeImmediate rd imm
  | halt | nop => exact decode_encodeRegisterPair (by decide) 0 0 0
  | mov rd rs | load rd rs | store rd rs | add rd rs | sub rd rs | and rd rs | or rd rs | xor rd rs | not rd rs =>
    exact decode_encodeRegisterPair (by decide) rd rs 0
  | shl rd | shr rd => exact decode_encodeRegisterPair (by decide) rd 0 0
  | jmp rs | jz rs => exact decode_encodeRegisterPair (by decide) 0 rs 0

/-- Settles O18: re-encoding keeps the opcode field and the fields that the row reads, and clears the others. -/
theorem encodeOfDecodeClearsIgnoredBits : Obligations.EncodeOfDecodeClearsIgnoredBits := by
  intro w
  obtain ⟨op, hop⟩ := exists_opcodeNumber_eq (decodeOpcode w)
  have hpair := encodeRegisterPair_decode w
  have hrd := encodeRegisterPair_decode_rd w
  have hrs := encodeRegisterPair_decode_rs w
  have hnone := encodeRegisterPair_decode_opcode w
  rw [← hop] at hpair hrd hrs hnone
  rw [decode_eq_withFields hop.symm]
  cases op with
  | movi => exact (encodeImmediate_decode hop.symm).trans BitVec.and_allOnes.symm
  | halt | nop => exact hnone
  | mov | load | store | add | sub | and | or | xor | not => exact hpair
  | shl | shr => exact hrd
  | jmp | jz => exact hrs

/-- The match of a row: its opcode number in the opcode field, the other bits 0. -/
theorem encodeRegisterPair_opcodeNumber (op : Opcode) :
    encodeRegisterPair (opcodeNumber op).toNat 0 0 = BitVec.ofNat 16 (4096 * (opcodeNumber op).toNat) := by
  cases op <;> decide

/-- Settles O19: the Word under the mask is its opcode field alone, which decides the row. -/
theorem everyWordIsOneRowsInstruction : Obligations.EveryWordIsOneRowsInstruction := by
  intro w op
  rw [decode_opcode_iff, ← encodeRegisterPair_decode_opcode, ← encodeRegisterPair_opcodeNumber]
  constructor
  · intro h
    rw [h]
  · intro h
    have hfield := congrArg decodeOpcode h
    simpa only [decodeOpcode_encodeRegisterPair, BitVec.ofNat_toNat, BitVec.setWidth_eq] using hfield

/-- Settles O23: the decoder run on each Word. -/
theorem sampleWordsDecode : Obligations.SampleWordsDecode := by
  unfold Obligations.SampleWordsDecode
  decide

end Sys2Proof
end

section
/-! PROOFS. The two words of an expanded JZ (70_reset_and_hazards.md section 3, conflict C5). -/

namespace Sys2Proof.Machine

theorem decode_jz_seven : decode 0xE1C0 = .jz 7 := by decide

/-- Settles O49: the MOVI leaves Z set exactly for target 0, and the JZ behind it reads that Z. -/
theorem expandedJzJumpsExactlyToZero : Obligations.ExpandedJzJumpsExactlyToZero := by
  intro s target hs hfirst hsecond
  obtain ⟨t, hmovi, hvalue, ⟨hz, -, -⟩, -, -, ⟨-, hmem⟩, hpc, hhalted⟩ :=
    moviLoadsZeroExtendedImmediate 7 target (setPc s (s.pc + 1))
  rw [setPc_pc] at hpc
  obtain ⟨u, hjz, htaken, hnotTaken, hregs, -⟩ := jzJumpsExactlyWhenZeroIsSet 7 (setPc t (t.pc + 1))
  have hword : readReg t 7 = target.setWidth 16 := by
    apply BitVec.eq_of_toNat_eq
    rw [hvalue, ← immediateOperand_toNat]
    rfl
  have hstep₁ : step s = .next t :=
    (stepRunsDecodedInstruction s _ hs (by rw [hfirst]; exact decode_encodeImmediate 7 target)).trans hmovi
  have hfetch : memRead t t.pc = 0xE1C0 := by
    rw [hpc, hmem, ← hsecond]
    rfl
  have hstep₂ : step t = .next u :=
    (stepRunsDecodedInstruction t _ (hhalted.trans hs) (by rw [hfetch]; exact decode_jz_seven)).trans hjz
  refine ⟨u, (run_succ_of_step (M := core) hstep₁ 1).trans (run_succ_of_step (M := core) hstep₂ 0),
    (hregs 7).trans hword, ?target⟩
  case target =>
    rw [hvalue] at hz
    split
    · next htarget =>
      have hset : t.flags.z = true := hz.mpr (by rw [htarget]; rfl)
      rw [htaken hset, readReg_setPc, hword, htarget]
      rfl
    · next htarget =>
      have hclear : t.flags.z = false :=
        eq_false_of_ne_true fun h => htarget (BitVec.eq_of_toNat_eq (hz.mp h))
      rw [hnotTaken hclear, setPc_pc, hpc, BitVec.add_assoc]
      rfl

end Sys2Proof.Machine
end

section
/-! PROOFS. Emission (30_encoding.md section 8, R82): what one word and a list of words do to the cursor and to memory. -/

namespace Sys2Proof.Machine

/-- What an assembly step answers, if it does not fail, has the property. -/
def Answers {σ : Type} (P : σ → Prop) (answer : Except AsmFailure σ) : Prop := ∀ s, answer = .ok s → P s

theorem answers_error {σ : Type} (P : σ → Prop) (e : AsmFailure) : Answers P (.error e) := nofun

theorem answers_ok {σ : Type} {P : σ → Prop} {s : σ} (hs : P s) : Answers P (.ok s) := by
  rintro t ⟨⟩
  exact hs

theorem emitWord_eq_ok_iff {size : Nat} {at_ at' : Nat × Memory} {w : Word} :
    emitWord size at_ w = .ok at' ↔ at_.1 < size ∧ at' = (at_.1 + 1, at_.2.busWrite size at_.1 w) := by
  unfold emitWord
  split
  · next hfull => exact iff_of_false nofun fun h => h.1.not_ge hfull
  · next hroom => rw [Except.ok.injEq, eq_comm, and_iff_right (not_le.mp hroom)]

theorem emitWord_of_full {size : Nat} {at_ : Nat × Memory} (h : size ≤ at_.1) (w : Word) :
    emitWord size at_ w = .error (.error .programTooLarge) :=
  if_pos h

/-- Settles O55: below the size the emission is a Bus write in bounds. -/
theorem emissionFailsExactlyAtMemorySize : Obligations.EmissionFailsExactlyAtMemorySize := by
  intro size c m w
  refine ⟨fun hfull => emitWord_of_full hfull w, fun hroom =>
    ⟨m.busWrite size c w, emitWord_eq_ok_iff.mpr ⟨hroom, rfl⟩, ?stored, fun a hne => ?others⟩⟩
  case stored => rw [Memory.cell_busWrite, if_pos ⟨hroom, rfl⟩]
  case others => rw [Memory.cell_busWrite, if_neg fun h => hne h.2]

/-- Emitting a list emits its head, then its tail. -/
theorem emitWords_cons_eq_ok {size : Nat} {w : Word} {ws : List Word} {at_ at' : Nat × Memory}
    (h : emitWords size (w :: ws) at_ = .ok at') :
    at_.1 < size ∧ emitWords size ws (at_.1 + 1, at_.2.busWrite size at_.1 w) = .ok at' := by
  rw [emitWords] at h
  split at h
  · next hword =>
    obtain ⟨hroom, rfl⟩ := emitWord_eq_ok_iff.mp hword
    exact ⟨hroom, h⟩
  · exact nomatch h

/-- Emitted words move the cursor by their number, and the last of them stands below the memory size. -/
theorem emitWords_cursor {size : Nat} {ws : List Word} {at_ at' : Nat × Memory} (h : emitWords size ws at_ = .ok at') :
    at'.1 = at_.1 + ws.length ∧ (0 < ws.length → at'.1 ≤ size) := by
  induction ws generalizing at_ with
  | nil =>
    obtain rfl := Except.ok.inj h
    exact ⟨rfl, fun hpos => absurd hpos (Nat.lt_irrefl 0)⟩
  | cons w ws ih =>
    obtain ⟨hroom, hrest⟩ := emitWords_cons_eq_ok h
    obtain ⟨hcursor, hbound⟩ := ih hrest
    rw [List.length_cons]
    refine ⟨by omega, fun _ => ?bound⟩
    case bound =>
      cases ws with
      | nil => rw [hcursor]; exact hroom
      | cons w' ws => exact hbound (Nat.succ_pos _)

end Sys2Proof.Machine
end

section
/-! PROOFS. The jump expansion and the drift of the passes (30_encoding.md R78 to R81, R84, conflict C4). -/

namespace Sys2Proof.Machine

/-- A MOVI word for R7 with an immediate that fits, as its constant bits beside the immediate. -/
theorem encodeImmediate_seven {target : Nat} (h : target ≤ 511) :
    encodeImmediate 7 target = 0x1E00 ||| BitVec.ofNat 16 target := by
  have hfield : fieldOf 9 0 target = BitVec.ofNat 16 target := by
    rw [fieldOf, Nat.mod_eq_of_lt (by omega), BitVec.shiftLeft_zero]
  have hconstant : fieldOf 4 12 1 ||| fieldOf 3 9 7 = 0x1E00 := by decide
  rw [encodeImmediate_eq, hconstant, hfield]

theorem jumpWords_of_register {cfg : AsmConfig} {labels : LabelTable} {t : Text} {r : RegIndex}
    (hreg : registerNamed t = some r) (op : Opcode) :
    jumpWords cfg labels op t = .ok [encodeRegisterPair (opcodeNumber op).toNat 0 r.val] := by
  rw [jumpWords, hreg]

section Target
variable {cfg : AsmConfig} {labels : LabelTable} {t : Text} {target : Nat} (hreg : registerNamed t = none)
include hreg

theorem jumpWords_of_no_value (hvalue : operandValue cfg labels t = none) (op : Opcode) :
    jumpWords cfg labels op t = .error (.error .operandError) := by
  rw [jumpWords, hreg]
  simp only [hvalue]

theorem jumpWords_of_small (hvalue : operandValue cfg labels t = some target) (hsmall : target ≤ 511) (op : Opcode) :
    jumpWords cfg labels op t = .ok [encodeImmediate 7 target, encodeRegisterPair (opcodeNumber op).toNat 0 7] := by
  rw [jumpWords, hreg]
  simp only [hvalue, if_neg hsmall.not_gt]

theorem jumpWords_of_large (hvalue : operandValue cfg labels t = some target) (hlarge : 511 < target) (op : Opcode) :
    jumpWords cfg labels op t = .error (.error .targetTooLarge) := by
  rw [jumpWords, hreg]
  simp only [hvalue, if_pos hlarge]

end Target

/-- Settles O53: a jump statement with one operand emits the jump's words. -/
theorem jumpTargetExpandsThroughRegisterSeven : Obligations.JumpTargetExpandsThroughRegisterSeven := by
  intro cfg labels t target hreg hvalue
  have hjmp : encodeRegisterPair (opcodeNumber .jmp).toNat 0 7 = 0xD1C0 := by decide
  have hjz : encodeRegisterPair (opcodeNumber .jz).toNat 0 7 = 0xE1C0 := by decide
  refine ⟨fun hsmall => ?small, fun hlarge => ?large⟩
  case small =>
    have hwords := jumpWords_of_small hreg hvalue hsmall
    simp only [encodeImmediate_seven hsmall] at hwords
    exact ⟨hjmp ▸ hwords .jmp, hjz ▸ hwords .jz⟩
  case large => exact ⟨jumpWords_of_large hreg hvalue hlarge .jmp, jumpWords_of_large hreg hvalue hlarge .jz⟩

/-- A jump emits one word for a register and two for any other operand. -/
theorem jumpWords_length {cfg : AsmConfig} {labels : LabelTable} {op : Opcode} {t : Text} {ws : List Word}
    (h : jumpWords cfg labels op t = .ok ws) : ws.length = if (registerNamed t).isNone then 2 else 1 := by
  cases hreg : registerNamed t with
  | some r =>
    rw [jumpWords_of_register hreg] at h
    obtain rfl := Except.ok.inj h
    rfl
  | none =>
    cases hvalue : operandValue cfg labels t with
    | none => rw [jumpWords_of_no_value hreg hvalue] at h; exact nomatch h
    | some target =>
      rcases le_or_gt target 511 with hsmall | hlarge
      · rw [jumpWords_of_small hreg hvalue hsmall] at h
        obtain rfl := Except.ok.inj h
        rfl
      · rw [jumpWords_of_large hreg hvalue hlarge] at h
        exact nomatch h

/-- The operations whose statements may expand. -/
abbrev IsJump (op : Opcode) : Prop := op = .jmp ∨ op = .jz

/-- An accepted jump statement has exactly one operand. -/
theorem instructionWords_of_jump {cfg : AsmConfig} {labels : LabelTable} {op : Opcode} {operands : List Text}
    {ws : List Word} (hop : IsJump op) (h : instructionWords cfg labels op operands = .ok ws) :
    ∃ t, operands = [t] ∧ jumpWords cfg labels op t = .ok ws := by
  match operands with
  | [t] => rcases hop with rfl | rfl <;> exact ⟨t, rfl, h⟩
  | [] => rcases hop with rfl | rfl <;> exact nomatch h
  | _ :: _ :: _ => rcases hop with rfl | rfl <;> exact nomatch h

theorem answers_one_word (w : Word) : Answers (fun ws => ws.length = 1) (.ok [w]) :=
  answers_ok (σ := List Word) List.length_singleton

theorem answers_one_word_map {α : Type} (x : Except AsmFailure α) (word : α → Word) :
    Answers (fun ws => ws.length = 1) (x.map fun a => [word a]) := by
  cases x with
  | error e => exact answers_error _ e
  | ok a => exact answers_one_word (word a)

/-- Every statement but a jump's emits one word: HALT and NOP, MOVI, the two shifts, and the two-register forms, where
their operands are accepted. -/
theorem instructionWords_one_word {op : Opcode} (hop : ¬ IsJump op) (cfg : AsmConfig) (labels : LabelTable)
    (operands : List Text) : Answers (fun ws => ws.length = 1) (instructionWords cfg labels op operands) := by
  fun_cases instructionWords cfg labels op operands
  case case1 | case2 | case7 | case19 => exact answers_one_word _
  case case9 | case10 => exact answers_one_word_map _ _
  case case13 | case15 => exact absurd (.inl rfl) hop
  case case14 | case16 => exact absurd (.inr rfl) hop
  all_goals exact answers_error _ _

/-- The number of words an accepted statement emits: two for a jump to what is no register, one for any other. -/
theorem instructionWords_length {cfg : AsmConfig} {labels : LabelTable} {op : Opcode} {operands : List Text}
    {ws : List Word} (h : instructionWords cfg labels op operands = .ok ws) :
    ws.length = if IsJump op ∧ operands.any (fun t => (registerNamed t).isNone) = true then 2 else 1 := by
  by_cases hop : IsJump op
  · obtain ⟨t, rfl, hwords⟩ := instructionWords_of_jump hop h
    rw [jumpWords_length hwords, List.any_cons, List.any_nil, Bool.or_false]
    simp only [hop, true_and]
  · rw [if_neg fun hjump => hop hjump.1]
    exact instructionWords_one_word hop cfg labels operands ws h

theorem passTwoLine_instruction_eq_ok {cfg : AsmConfig} {labels : LabelTable} {size : Nat} {op : Opcode}
    {operands : List Text} {at_ at' : Nat × Memory}
    (h : passTwoLine cfg labels size at_ (.instruction op operands) = .ok at') :
    ∃ ws, instructionWords cfg labels op operands = .ok ws ∧ emitWords size ws at_ = .ok at' := by
  rw [passTwoLine] at h
  split at h
  · next ws hwords => exact ⟨ws, hwords, h⟩
  · exact nomatch h

/-- Settles O54: pass 2 moves the cursor by the number of words emitted, which pass 1 counts as one. -/
theorem expandedJumpsDriftTheLabels : Obligations.ExpandedJumpsDriftTheLabels := by
  intro cfg labels size op operands c c' m m' h
  obtain ⟨ws, hwords, hemit⟩ := passTwoLine_instruction_eq_ok h
  obtain ⟨hcursor, hbound⟩ := emitWords_cursor hemit
  have hlength := instructionWords_length hwords
  have hpos : 0 < ws.length := by
    rw [hlength]
    split <;> decide
  refine ⟨rfl, ?cursor, hbound hpos⟩
  case cursor =>
    rw [hlength] at hcursor
    split
    · next hexpands => rwa [if_pos hexpands] at hcursor
    · next hplain => rwa [if_neg hplain] at hcursor

end Sys2Proof.Machine
end

section
/-! PROOFS. A loaded program (30_encoding.md section 8): pass 2 writes memory through the Bus alone, so it keeps the
canonical form and the bound. -/

namespace Sys2Proof.Machine

/-- The part of the invariant that is about the memory array. -/
def Memory.Canonical (size : Nat) (m : Memory) : Prop := m.wf = true ∧ m.within size = true

theorem Memory.Canonical.busWrite {size : Nat} {m : Memory} (hm : m.Canonical size) (a : Nat) (v : Word) :
    (m.busWrite size a v).Canonical size :=
  ⟨wf_busWrite size a v hm.1, within_busWrite a v hm.2⟩

theorem emitWord_canonical {size : Nat} {at_ : Nat × Memory} (hm : at_.2.Canonical size) (w : Word) :
    Answers (fun at' => at'.2.Canonical size) (emitWord size at_ w) := by
  intro at' h
  obtain ⟨-, rfl⟩ := emitWord_eq_ok_iff.mp h
  exact hm.busWrite _ _

theorem emitWords_canonical {size : Nat} {at_ : Nat × Memory} (hm : at_.2.Canonical size) (ws : List Word) :
    Answers (fun at' => at'.2.Canonical size) (emitWords size ws at_) := by
  induction ws generalizing at_ with
  | nil => exact answers_ok hm
  | cons w ws ih =>
    intro at' h
    obtain ⟨-, hrest⟩ := emitWords_cons_eq_ok h
    exact ih (hm.busWrite _ _) at' hrest

theorem passTwoLine_canonical {size : Nat} {at_ : Nat × Memory} (hm : at_.2.Canonical size) (cfg : AsmConfig)
    (labels : LabelTable) (statement : Statement) :
    Answers (fun at' => at'.2.Canonical size) (passTwoLine cfg labels size at_ statement) := by
  fun_cases passTwoLine cfg labels size at_ statement
  case case1 | case2 => exact answers_ok hm
  case case3 operands =>
    cases orgAddress cfg operands with
    | error e => exact answers_error _ e
    | ok address => exact answers_ok hm
  case case5 => exact emitWord_canonical hm _
  case case6 => exact answers_ok (hm.busWrite _ _)
  case case9 ws _ => exact emitWords_canonical hm ws
  all_goals exact answers_error _ _

/-- What each statement keeps, a pass over the lines keeps. -/
theorem overLines_keeps {σ : Type} {P : σ → Prop} {pass : σ → Statement → Except AsmFailure σ}
    (hpass : ∀ s statement, P s → Answers P (pass s statement)) {line : Nat} {statements : List Statement} {s t : σ}
    (hs : P s) (h : overLines pass line statements s = .ok t) : P t := by
  induction statements generalizing line s with
  | nil =>
    obtain rfl := Except.ok.inj h
    exact hs
  | cons statement rest ih =>
    rw [overLines] at h
    split at h
    · next s' hstatement => exact ih (hpass s statement hs s' hstatement) h
    · exact nomatch h

theorem asmFailed_ne_ok (failure : AsmFailure × Nat) (mem : Memory) : asmFailed failure ≠ .ok mem := by
  obtain ⟨reason, line⟩ := failure
  cases reason <;> exact nofun

/-- An assembly answers the memory that pass 2 leaves. -/
theorem assemble_canonical {cfg : AsmConfig} {source : Text} {m loaded : Memory} {size : Nat}
    (hm : m.Canonical size) (h : assemble cfg source m size = .ok loaded) : loaded.Canonical size := by
  simp only [assemble] at h
  split at h
  · exact absurd h (asmFailed_ne_ok _ _)
  · split at h
    · exact absurd h (asmFailed_ne_ok _ _)
    · next labels _ _ cursor loaded' hpassTwo =>
      obtain rfl := AsmResult.ok.inj h
      exact overLines_keeps (P := fun at_ : Nat × Memory => at_.2.Canonical size)
        (fun _ statement hat => passTwoLine_canonical hat cfg labels statement) hm hpassTwo

theorem hostLoad_eq_some {cfg : AsmConfig} {source : Text} {s t : State} (h : hostLoad cfg source s = some t) :
    ∃ mem, assemble cfg source s.mem s.memorySize = .ok mem ∧ t = { s with mem := mem } := by
  rw [hostLoad] at h
  split at h
  · next mem hassemble => exact ⟨mem, hassemble, (Option.some.inj h).symm⟩
  · exact nomatch h
  · exact nomatch h

/-- Settles O12: a load replaces the memory array by the one pass 2 leaves, and nothing else. -/
theorem assemblyKeepsInvariant : Obligations.AssemblyKeepsInvariant := by
  intro cfg source s t hs hload
  obtain ⟨mem, hassemble, rfl⟩ := hostLoad_eq_some hload
  obtain ⟨hwf, hwithin, hrange⟩ := hs
  obtain ⟨hwf', hwithin'⟩ := assemble_canonical ⟨hwf, hwithin⟩ hassemble
  exact ⟨⟨hwf', hwithin', hrange⟩, sameRegs_of_regs_eq rfl, rfl, rfl, rfl, rfl⟩

end Sys2Proof.Machine
end
